-- ==== Sys2Proof/Word.lean ====
section
/-! DEFINITION. The word types of the CHIP-8 core (10_state.md, 30_encoding.md R92): all values are
unsigned (00_scope.md R9). -/

namespace Sys2Proof

/-- An 8-bit value: a general register, a memory byte, a timer count (R20, R28, R29, R31). -/
abbrev Byte := BitVec 8

/-- A 16-bit value: an instruction word, `pc`, `I`, a stack entry (R23, R26, R27, R90). -/
abbrev Word := BitVec 16

/-- A 4-bit value: one nibble of an instruction word, a key number. -/
abbrev Nibble := BitVec 4

/-- A register index, 0 to 15; all 16 values are legal (R92). -/
abbrev RegIdx := BitVec 4

/-- The 12-bit address operand `NNN` (R12, R92). -/
abbrev Addr12 := BitVec 12

end Sys2Proof
end

