-- ==== Sys2Proof/Syntax.lean ====
section
/-! DEFINITION. The decoded instructions: one constructor per row of spec/opcode_table.json
(30_encoding.md R100), with the operands of R91 and R92. The names are the table's (R13). -/

namespace Sys2Proof

/-- A decoded instruction (R93: "a typed opcode value"). Register operands are `x` and `y`, the 4-bit
count `n`, the 8-bit immediate `nn`, the 12-bit address `nnn` (R12). -/
inductive Instr where
  /-- `00E0` (R180) -/
  | clearScreen
  /-- `00EE` (R152) -/
  | popSubroutine
  /-- `1NNN` (R150) -/
  | jump (nnn : Addr12)
  /-- `2NNN` (R151) -/
  | pushSubroutine (nnn : Addr12)
  /-- `3XNN` (R161) -/
  | skipEqualConstant (x : RegIdx) (nn : Byte)
  /-- `4XNN` (R162) -/
  | skipNotEqualConstant (x : RegIdx) (nn : Byte)
  /-- `5XY0` (R163) -/
  | skipEqualRegister (x y : RegIdx)
  /-- `6XNN` (R120) -/
  | setRegister (x : RegIdx) (nn : Byte)
  /-- `7XNN` (R121) -/
  | addConstant (x : RegIdx) (nn : Byte)
  /-- `8XY0` (R122) -/
  | copyRegister (x y : RegIdx)
  /-- `8XY1` (R123) -/
  | or (x y : RegIdx)
  /-- `8XY2` (R124) -/
  | and (x y : RegIdx)
  /-- `8XY3` (R125) -/
  | xOr (x y : RegIdx)
  /-- `8XY4` (R126) -/
  | add (x y : RegIdx)
  /-- `8XY5` (R127) -/
  | subtractForward (x y : RegIdx)
  /-- `8XY6`, one operand: the Y nibble is ignored (R98, R128) -/
  | rightShift (x : RegIdx)
  /-- `8XY7` (R129) -/
  | subtractBackward (x y : RegIdx)
  /-- `8XYE`, one operand: the Y nibble is ignored (R98, R130) -/
  | leftShift (x : RegIdx)
  /-- `9XY0` (R164) -/
  | skipNotEqualRegister (x y : RegIdx)
  /-- `ANNN` (R140) -/
  | setIndex (nnn : Addr12)
  /-- `BNNN` (R153) -/
  | jumpWithOffset (nnn : Addr12)
  /-- `CXNN` (R131) -/
  | random (x : RegIdx) (nn : Byte)
  /-- `DXYN` (R181) -/
  | display (x y : RegIdx) (n : Nibble)
  /-- `EX9E` (R165) -/
  | skipIfPressed (x : RegIdx)
  /-- `EXA1` (R166) -/
  | skipIfNotPressed (x : RegIdx)
  /-- `FX07` (R170) -/
  | copyDelayToRegister (x : RegIdx)
  /-- `FX0A` (R171) -/
  | getKey (x : RegIdx)
  /-- `FX15` (R172) -/
  | copyRegisterToDelay (x : RegIdx)
  /-- `FX18` (R173) -/
  | copyRegisterToSound (x : RegIdx)
  /-- `FX1E` (R141) -/
  | addToIndex (x : RegIdx)
  /-- `FX29` (R142) -/
  | pointChar (x : RegIdx)
  /-- `FX33` (R143) -/
  | toDecimal (x : RegIdx)
  /-- `FX55` (R144) -/
  | storeRegisters (x : RegIdx)
  /-- `FX65` (R145) -/
  | loadRegisters (x : RegIdx)
  /-- Any other word, kept as it is (R101, R154; `Raw(0xWWWW)` of R104; log 9). -/
  | unrecognized (w : Word)
deriving DecidableEq, Repr

/-- The number of an instruction's row in R100's table. -/
def Instr.rowNumber : Instr → Nat
  | .clearScreen => 1
  | .popSubroutine => 2
  | .jump _ => 3
  | .pushSubroutine _ => 4
  | .skipEqualConstant _ _ => 5
  | .skipNotEqualConstant _ _ => 6
  | .skipEqualRegister _ _ => 7
  | .setRegister _ _ => 8
  | .addConstant _ _ => 9
  | .copyRegister _ _ => 10
  | .or _ _ => 11
  | .and _ _ => 12
  | .xOr _ _ => 13
  | .add _ _ => 14
  | .subtractForward _ _ => 15
  | .rightShift _ => 16
  | .subtractBackward _ _ => 17
  | .leftShift _ => 18
  | .skipNotEqualRegister _ _ => 19
  | .setIndex _ => 20
  | .jumpWithOffset _ => 21
  | .random _ _ => 22
  | .display _ _ _ => 23
  | .skipIfPressed _ => 24
  | .skipIfNotPressed _ => 25
  | .copyDelayToRegister _ => 26
  | .getKey _ => 27
  | .copyRegisterToDelay _ => 28
  | .copyRegisterToSound _ => 29
  | .addToIndex _ => 30
  | .pointChar _ => 31
  | .toDecimal _ => 32
  | .storeRegisters _ => 33
  | .loadRegisters _ => 34
  | .unrecognized _ => 35

end Sys2Proof
end

