-- ==== Sys2Proof/Decode.lean ====
section
/-! DEFINITION. The decoder (30_encoding.md R93 to R101), total on any bytes, and after it the encoder
and the assembly text (R104), and the opcode map of R100 as mask and match rows. -/

namespace Sys2Proof

/-! ### Fields of an instruction word (00_scope.md R10, R12) -/

/-- R10's `field(startNibble, nibbleCount)`: nibbles are numbered from 1 at the most significant end. -/
def field (w : Word) (start count : Nat) : BitVec (4 * count) :=
  w.extractLsb' (20 - 4 * start - 4 * count) (4 * count)

/-- The opcode family, `field(1,1)`: bits 15:12. -/
def family (w : Word) : Nibble := w.extractLsb' 12 4
/-- `X`, `field(2,1)`: bits 11:8. -/
def fieldX (w : Word) : RegIdx := w.extractLsb' 8 4
/-- `Y`, `field(3,1)`: bits 7:4. -/
def fieldY (w : Word) : RegIdx := w.extractLsb' 4 4
/-- `N`, `field(4,1)`: bits 3:0. -/
def fieldN (w : Word) : Nibble := w.extractLsb' 0 4
/-- `NN`, `field(3,2)`: bits 7:0. -/
def fieldNN (w : Word) : Byte := w.extractLsb' 0 8
/-- `NNN`, `field(2,3)`: bits 11:0. -/
def fieldNNN (w : Word) : Addr12 := w.extractLsb' 0 12

/-! ### The decoder -/

/-- Family 0 requires an exact match of the whole word (R94). -/
def decodeFamily0 (w : Word) : Instr :=
  if w = 0x00E0#16 then .clearScreen
  else if w = 0x00EE#16 then .popSubroutine
  else .unrecognized w

/-- Family 5: the low nibble must be 0 (R97, D2). -/
def decodeFamily5 (w : Word) : Instr :=
  if fieldN w = 0x0#4 then .skipEqualRegister (fieldX w) (fieldY w) else .unrecognized w

/-- Family 8 selects its operation by the lowest nibble; the shifts ignore Y (R98). -/
def decodeFamily8 (w : Word) : Instr :=
  match fieldN w with
  | 0x0#4 => .copyRegister (fieldX w) (fieldY w)
  | 0x1#4 => .or (fieldX w) (fieldY w)
  | 0x2#4 => .and (fieldX w) (fieldY w)
  | 0x3#4 => .xOr (fieldX w) (fieldY w)
  | 0x4#4 => .add (fieldX w) (fieldY w)
  | 0x5#4 => .subtractForward (fieldX w) (fieldY w)
  | 0x6#4 => .rightShift (fieldX w)
  | 0x7#4 => .subtractBackward (fieldX w) (fieldY w)
  | 0xE#4 => .leftShift (fieldX w)
  | _ => .unrecognized w

/-- Family 9: the low nibble must be 0 (R97, D2). -/
def decodeFamily9 (w : Word) : Instr :=
  if fieldN w = 0x0#4 then .skipNotEqualRegister (fieldX w) (fieldY w) else .unrecognized w

/-- Family E selects its operation by the low byte (R99). -/
def decodeFamilyE (w : Word) : Instr :=
  match fieldNN w with
  | 0x9E#8 => .skipIfPressed (fieldX w)
  | 0xA1#8 => .skipIfNotPressed (fieldX w)
  | _ => .unrecognized w

/-- Family F selects its operation by the low byte (R99). -/
def decodeFamilyF (w : Word) : Instr :=
  match fieldNN w with
  | 0x07#8 => .copyDelayToRegister (fieldX w)
  | 0x0A#8 => .getKey (fieldX w)
  | 0x15#8 => .copyRegisterToDelay (fieldX w)
  | 0x18#8 => .copyRegisterToSound (fieldX w)
  | 0x1E#8 => .addToIndex (fieldX w)
  | 0x29#8 => .pointChar (fieldX w)
  | 0x33#8 => .toDecimal (fieldX w)
  | 0x55#8 => .storeRegisters (fieldX w)
  | 0x65#8 => .loadRegisters (fieldX w)
  | _ => .unrecognized w

/-- `Decode` of R93: the top nibble selects one of 16 families, then the fixed layout of R94 to R99.
PRESUMED on every row the table marks `gk` (D1; log 14). -/
def decodeWord (w : Word) : Instr :=
  match family w with
  | 0x0#4 => decodeFamily0 w
  | 0x1#4 => .jump (fieldNNN w)
  | 0x2#4 => .pushSubroutine (fieldNNN w)
  | 0x3#4 => .skipEqualConstant (fieldX w) (fieldNN w)
  | 0x4#4 => .skipNotEqualConstant (fieldX w) (fieldNN w)
  | 0x5#4 => decodeFamily5 w
  | 0x6#4 => .setRegister (fieldX w) (fieldNN w)
  | 0x7#4 => .addConstant (fieldX w) (fieldNN w)
  | 0x8#4 => decodeFamily8 w
  | 0x9#4 => decodeFamily9 w
  | 0xA#4 => .setIndex (fieldNNN w)
  | 0xB#4 => .jumpWithOffset (fieldNNN w)
  | 0xC#4 => .random (fieldX w) (fieldNN w)
  | 0xD#4 => .display (fieldX w) (fieldY w) (fieldN w)
  | 0xE#4 => decodeFamilyE w
  | _ => decodeFamilyF w

/-- Why bytes do not decode. -/
inductive DecodeError where
  /-- Fewer than the two bytes of an instruction stand there (R90). No word is ever refused (R93). -/
  | truncated
deriving DecidableEq, Repr

/-- The instruction word of two consecutive bytes, the more significant first (R64). -/
def wordOfBytes (hi lo : Byte) : Word := hi ++ lo

/-- The decoder on bytes: the instruction and the bytes after it (R64, R90). -/
def decodeBytes : List Byte → Except DecodeError (Instr × List Byte)
  | hi :: lo :: rest => .ok (decodeWord (wordOfBytes hi lo), rest)
  | _ => .error .truncated

/-- The two bytes an instruction word is stored as, lowest address first (R64). -/
def bytesOfWord (w : Word) : Byte × Byte := (w.extractLsb' 8 8, w.extractLsb' 0 8)

/-- The 16-bit instruction word of a table word: the bits from `nbits` up are 0. -/
def tableWord (nbits w : Nat) : Word := BitVec.ofNat 16 (w % 2 ^ nbits)

/-- The instruction the decoder reads from a table word, laid out big-endian in bytes (R64). -/
def decodeTableWord (nbits w : Nat) : Option Instr :=
  match decodeBytes [(bytesOfWord (tableWord nbits w)).1, (bytesOfWord (tableWord nbits w)).2] with
  | .ok (i, _) => some i
  | .error _ => none

/-! ### The encoder (R104) -/

/-- Format `A` of R91. -/
def packA (op : Nibble) (nnn : Addr12) : Word := op ++ nnn
/-- Format `RI` of R91, and format `R` with the function byte as the immediate. -/
def packRI (op : Nibble) (x : RegIdx) (nn : Byte) : Word := op ++ x ++ nn
/-- Formats `RR` and `RRN` of R91. -/
def packRRN (op : Nibble) (x y : RegIdx) (n : Nibble) : Word := op ++ x ++ y ++ n

/-- The word of an instruction: the inverse of R100, with Y = 0 for the shifts (R104). -/
def encode : Instr → Word
  | .clearScreen => 0x00E0#16
  | .popSubroutine => 0x00EE#16
  | .jump nnn => packA 0x1 nnn
  | .pushSubroutine nnn => packA 0x2 nnn
  | .skipEqualConstant x nn => packRI 0x3 x nn
  | .skipNotEqualConstant x nn => packRI 0x4 x nn
  | .skipEqualRegister x y => packRRN 0x5 x y 0x0
  | .setRegister x nn => packRI 0x6 x nn
  | .addConstant x nn => packRI 0x7 x nn
  | .copyRegister x y => packRRN 0x8 x y 0x0
  | .or x y => packRRN 0x8 x y 0x1
  | .and x y => packRRN 0x8 x y 0x2
  | .xOr x y => packRRN 0x8 x y 0x3
  | .add x y => packRRN 0x8 x y 0x4
  | .subtractForward x y => packRRN 0x8 x y 0x5
  | .rightShift x => packRRN 0x8 x 0x0 0x6
  | .subtractBackward x y => packRRN 0x8 x y 0x7
  | .leftShift x => packRRN 0x8 x 0x0 0xE
  | .skipNotEqualRegister x y => packRRN 0x9 x y 0x0
  | .setIndex nnn => packA 0xA nnn
  | .jumpWithOffset nnn => packA 0xB nnn
  | .random x nn => packRI 0xC x nn
  | .display x y n => packRRN 0xD x y n
  | .skipIfPressed x => packRI 0xE x 0x9E
  | .skipIfNotPressed x => packRI 0xE x 0xA1
  | .copyDelayToRegister x => packRI 0xF x 0x07
  | .getKey x => packRI 0xF x 0x0A
  | .copyRegisterToDelay x => packRI 0xF x 0x15
  | .copyRegisterToSound x => packRI 0xF x 0x18
  | .addToIndex x => packRI 0xF x 0x1E
  | .pointChar x => packRI 0xF x 0x29
  | .toDecimal x => packRI 0xF x 0x33
  | .storeRegisters x => packRI 0xF x 0x55
  | .loadRegisters x => packRI 0xF x 0x65
  | .unrecognized w => w

/-! ### Assembly text and program images (R104, R105) -/

/-- The hexadecimal digits of `n`, `count` of them. -/
def hexDigits (n count : Nat) : List Char :=
  match count with
  | 0 => []
  | k + 1 => hexDigits (n / 16) k ++ ["0123456789ABCDEF".toList.getD (n % 16) '0']

/-- A value of whole nibbles as `0x` and its hexadecimal digits. -/
def hexText {width : Nat} (v : BitVec width) : String :=
  String.ofList ('0' :: 'x' :: hexDigits v.toNat (width / 4))

/-- `Name(operand, ...)`. -/
def call (name : String) (operands : List String) : String :=
  name ++ "(" ++ String.intercalate ", " operands ++ ")"

/-- How the spec writes an instruction: its mnemonic and its operands in the order X, Y, N, NN, NNN;
an unrecognized word as `Raw(0xWWWW)`. -/
def Instr.assembly : Instr → String
  | .clearScreen => "ClearScreen"
  | .popSubroutine => "PopSubroutine"
  | .jump nnn => call "Jump" [hexText nnn]
  | .pushSubroutine nnn => call "PushSubroutine" [hexText nnn]
  | .skipEqualConstant x nn => call "SkipEqualConstant" [hexText x, hexText nn]
  | .skipNotEqualConstant x nn => call "SkipNotEqualConstant" [hexText x, hexText nn]
  | .skipEqualRegister x y => call "SkipEqualRegister" [hexText x, hexText y]
  | .setRegister x nn => call "SetRegister" [hexText x, hexText nn]
  | .addConstant x nn => call "AddConstant" [hexText x, hexText nn]
  | .copyRegister x y => call "CopyRegister" [hexText x, hexText y]
  | .or x y => call "Or" [hexText x, hexText y]
  | .and x y => call "And" [hexText x, hexText y]
  | .xOr x y => call "XOr" [hexText x, hexText y]
  | .add x y => call "Add" [hexText x, hexText y]
  | .subtractForward x y => call "SubtractForward" [hexText x, hexText y]
  | .rightShift x => call "RightShift" [hexText x]
  | .subtractBackward x y => call "SubtractBackward" [hexText x, hexText y]
  | .leftShift x => call "LeftShift" [hexText x]
  | .skipNotEqualRegister x y => call "SkipNotEqualRegister" [hexText x, hexText y]
  | .setIndex nnn => call "SetIndex" [hexText nnn]
  | .jumpWithOffset nnn => call "JumpWithOffset" [hexText nnn]
  | .random x nn => call "Random" [hexText x, hexText nn]
  | .display x y n => call "Display" [hexText x, hexText y, hexText n]
  | .skipIfPressed x => call "SkipIfPressed" [hexText x]
  | .skipIfNotPressed x => call "SkipIfNotPressed" [hexText x]
  | .copyDelayToRegister x => call "CopyDelayToRegister" [hexText x]
  | .getKey x => call "GetKey" [hexText x]
  | .copyRegisterToDelay x => call "CopyRegisterToDelay" [hexText x]
  | .copyRegisterToSound x => call "CopyRegisterToSound" [hexText x]
  | .addToIndex x => call "AddToIndex" [hexText x]
  | .pointChar x => call "PointChar" [hexText x]
  | .toDecimal x => call "ToDecimal" [hexText x]
  | .storeRegisters x => call "StoreRegisters" [hexText x]
  | .loadRegisters x => call "LoadRegisters" [hexText x]
  | .unrecognized w => call "Raw" [hexText w]

/-- The bytes of a program, each word big-endian, as the host loads them at 0x200 (R64, R206). -/
def programImage : List Instr → List Byte
  | [] => []
  | i :: rest => (bytesOfWord (encode i)).1 :: (bytesOfWord (encode i)).2 :: programImage rest

/-! ### The opcode map as R100 prints it -/

/-- A row of R100: a word `w` is the instruction when `w AND mask = pattern`. -/
structure OpcodeRow where
  number : Nat
  mask : Word
  pattern : Word
deriving DecidableEq, Repr

/-- Whether a word is an instruction of the row. -/
def OpcodeRow.takes (r : OpcodeRow) (w : Word) : Bool := w &&& r.mask == r.pattern

/-- Rows 1 to 34 of R100; row 35 takes every word no other row takes. -/
def opcodeMap : List OpcodeRow :=
  [ ⟨1, 0xFFFF, 0x00E0⟩, ⟨2, 0xFFFF, 0x00EE⟩, ⟨3, 0xF000, 0x1000⟩, ⟨4, 0xF000, 0x2000⟩,
    ⟨5, 0xF000, 0x3000⟩, ⟨6, 0xF000, 0x4000⟩, ⟨7, 0xF00F, 0x5000⟩, ⟨8, 0xF000, 0x6000⟩,
    ⟨9, 0xF000, 0x7000⟩ ] ++
  [ ⟨10, 0xF00F, 0x8000⟩, ⟨11, 0xF00F, 0x8001⟩, ⟨12, 0xF00F, 0x8002⟩, ⟨13, 0xF00F, 0x8003⟩,
    ⟨14, 0xF00F, 0x8004⟩, ⟨15, 0xF00F, 0x8005⟩, ⟨16, 0xF00F, 0x8006⟩, ⟨17, 0xF00F, 0x8007⟩,
    ⟨18, 0xF00F, 0x800E⟩, ⟨19, 0xF00F, 0x9000⟩ ] ++
  [ ⟨20, 0xF000, 0xA000⟩, ⟨21, 0xF000, 0xB000⟩, ⟨22, 0xF000, 0xC000⟩, ⟨23, 0xF000, 0xD000⟩,
    ⟨24, 0xF0FF, 0xE09E⟩, ⟨25, 0xF0FF, 0xE0A1⟩, ⟨26, 0xF0FF, 0xF007⟩, ⟨27, 0xF0FF, 0xF00A⟩,
    ⟨28, 0xF0FF, 0xF015⟩, ⟨29, 0xF0FF, 0xF018⟩, ⟨30, 0xF0FF, 0xF01E⟩, ⟨31, 0xF0FF, 0xF029⟩,
    ⟨32, 0xF0FF, 0xF033⟩, ⟨33, 0xF0FF, 0xF055⟩, ⟨34, 0xF0FF, 0xF065⟩ ]

/-- Whether one of rows 1 to 34 takes the word. -/
def isDefinedWord (w : Word) : Bool := opcodeMap.any (fun r => r.takes w)

/-- The number of the row of R100 that takes the word. -/
def rowNumberOfWord (w : Word) : Nat :=
  match opcodeMap.find? (fun r => r.takes w) with
  | some r => r.number
  | none => 35

end Sys2Proof
end

