-- ==== Sys2Proof/Config.lean ====
section
/-! DEFINITION. What is fixed for the machine: the constants the source fixes (00_scope.md R6), the
parameters of a run (R7), and the free values the environment supplies (R40, R42, R171). -/

namespace Sys2Proof.Config

/-- The memory holds 4096 bytes (R6, R60). -/
def memorySize : Nat := 4096

/-- A program is loaded at 0x200, and execution starts there (R6, R221). -/
def loadAddress : Nat := 0x200

/-- The font table stands at 0x50 (R6, R69). -/
def fontAddress : Nat := 0x50

/-- A glyph of the font table is 5 bytes (R6, R69). -/
def glyphBytes : Nat := 5

/-- The framebuffer has 64 columns (R6, R30). -/
def screenColumns : Nat := 64

/-- The framebuffer has 32 rows (R6, R30). -/
def screenRows : Nat := 32

/-- The parameters of R7 that a rule depends on, fixed for a whole run and reached by no instruction
(R34). They stand in `State.params`, so that a statement about every state holds for every setting
(log 7). -/
structure Params where
  /-- `QUIRK_ADD_INDEX_FLAG`: whether `AddToIndex` writes VF (R141, D11). -/
  quirkAddIndexFlag : Bool
  /-- `STACK_DEPTH`: `none` is the source-faithful unbounded stack (R27, D21). -/
  stackDepth : Option Nat
deriving DecidableEq, Repr

/-- The defaults of R7: the quirk off, the stack unbounded. -/
def defaultParams : Params := { quirkAddIndexFlag := false, stackDepth := none }

/-- The answer to the n-th `KeypadSample()` beyond the ones the host has fixed: a free 16-bit value
(R40, D31; log 2). -/
opaque keypadSample : Nat → BitVec 16

/-- The answer to the n-th `RandomByte()` beyond the ones the host has fixed: a free 8-bit value
(R42, R131, D15; log 2). -/
opaque randomByte : Nat → BitVec 8

/-- The free choice of `GetKey` among several pressed keys (R171, D18; log 2, log 3). -/
opaque keyChoice : Nat → BitVec 4

end Sys2Proof.Config
end

