-- ==== Sys2Proof/Machine/State.lean ====
section
/-! DEFINITION. The machine's state as plain data (10_state.md), its reset value (R43), and the reasons
a step can stop. -/

namespace Sys2Proof.Machine

open Sys2Proof.Config

/-- The six synchronous exceptions, each with the info it records (60_exceptions.md R190). -/
inductive Cause where
  /-- Code 1: `PopSubroutine` on an empty stack (R192). -/
  | stackUnderflow
  /-- Code 2: `PushSubroutine` on a full finite stack; the depth (R193). -/
  | stackOverflow (depth : Nat)
  /-- Code 3: the fetch check found `pc` odd or below 0x200; the value of `pc` (R194). -/
  | pcInvariantFault (pc : Word)
  /-- Code 4: an instruction's data range leaves the memory; the value of `I` (R195). -/
  | memoryOutOfRange (index : Word)
  /-- Code 5: a key skip names a key above 15; the value of `x[X]` (R196). -/
  | keyIndexOutOfRange (value : Byte)
  /-- Code 6: `PointChar` of a digit above 15; the value of `x[X]` (R197). -/
  | fontDigitOutOfRange (value : Byte)
deriving DecidableEq, Repr

/-- The cause codes of R190. -/
def Cause.code : Cause → Nat
  | .stackUnderflow => 1
  | .stackOverflow _ => 2
  | .pcInvariantFault _ => 3
  | .memoryOutOfRange _ => 4
  | .keyIndexOutOfRange _ => 5
  | .fontDigitOutOfRange _ => 6

/-- What the core as a whole is doing (R32). -/
inductive Status where
  /-- After reset, before a program is loaded. -/
  | unloaded
  /-- A load was refused (R223). -/
  | loadFailed
  /-- Instructions execute. -/
  | running
  /-- Normal termination (R228). -/
  | halted
  /-- A fatal condition, with its cause and info (R191). -/
  | faulted (cause : Cause)
deriving DecidableEq, Repr

/-- One move of an agent (R200). -/
inductive Event where
  /-- One CPU step (R201). -/
  | cpu
  /-- `TickDelay` (R202). -/
  | tickDelay
  /-- `TickSound` (R202). -/
  | tickSound
  /-- The display refresh (R204). -/
  | refresh
  /-- The host loads a program (R222). -/
  | load (program : List Byte)
  /-- The host resets the core (R220). -/
  | reset
deriving DecidableEq, Repr

/-- The framebuffer of R30, by rows from the top: bit `col` of row `row` is `fb[col][row]` (log 11). -/
abbrev Framebuffer := Vector (BitVec 64) 32

/-- Memory as (address, byte) pairs, strictly rising in the address, no entry equal to what an
unlisted address reads as (`Memory.background` in Machine/Ops.lean, `Memory.wf`). -/
abbrev Memory := List Host.Cell

/-- The machine's state (10_state.md). The last five fields are the model's own: what the environment
has fixed of its coming moves and answers (log 1, log 2). -/
structure State where
  /-- `x[0]` to `x[15]`; `x[15]` is VF (R20, R21). -/
  regs : Vector Byte 16
  /-- The program counter (R23). -/
  pc : Word
  /-- One past the last loaded byte (R24). -/
  loadEnd : BitVec 13
  /-- The index register `I` (R26). -/
  index : Word
  /-- The call stack, its end last (R27). -/
  stack : List Word
  /-- The delay timer `DT` (R28). -/
  dt : Byte
  /-- The sound timer `ST` (R29). -/
  st : Byte
  /-- The framebuffer (R30). -/
  fb : Framebuffer
  /-- The memory (R31). -/
  mem : Memory
  /-- What the core is doing (R32). -/
  status : Status
  /-- The external display surface (R37). -/
  shown : Framebuffer
  /-- The parameters of the run (R7, R34). -/
  params : Params
  /-- The coming moves of the agents; when it is empty the CPU moves (log 1). -/
  schedule : List Event
  /-- The host's answers to the coming `KeypadSample()` calls (R40; log 2). -/
  keypadAnswers : List (BitVec 16)
  /-- The host's answers to the coming `RandomByte()` calls (R42; log 2). -/
  randomAnswers : List Byte
  /-- The coming choices of `GetKey` among several pressed keys (R171; log 2). -/
  keyChoices : List Nibble
  /-- How many free values have been drawn beyond those lists (log 2). -/
  draws : Nat
deriving DecidableEq, Repr

/-- The state after reset, before a load (R43, R220). `shown` is unspecified there: all 0 is a
DESIGN CHOICE (log 8). The last five fields are the model's own (log 1, log 2). -/
def State.reset : State where
  regs := Vector.replicate 16 0
  pc := 0x0200
  loadEnd := 0x0200
  index := 0
  stack := []
  dt := 0
  st := 0
  fb := Vector.replicate 32 0
  mem := []
  status := .unloaded
  shown := Vector.replicate 32 0
  params := defaultParams
  schedule := []
  keypadAnswers := []
  randomAnswers := []
  keyChoices := []
  draws := 0

/-- Why `step` finds no agent enabled. No instruction's meaning raises one of these: the six
exceptions of R190 are next states (log 4). -/
inductive Fault where
  /-- Raised by `step` when an agent other than the host is to move while `status = Unloaded`: no
  instruction executes before a load (R32). Safe: the model stops, the hardware waits for a load. -/
  | awaitingLoad
  /-- Raised by `step` after a refused load: no instruction ever executes (R223). Safe. -/
  | loadFailed
  /-- Raised by `step` after normal termination: the run is over (R205, R228). Safe. -/
  | halted
  /-- Raised by `step` after a fatal condition: the core has stopped (R191). Safe. -/
  | faulted (cause : Cause)
deriving DecidableEq, Repr

/-- Why a step has no meaning. -/
inductive Refusal where
  /-- Raised by `exec` for an instruction that has no meaning in the model. Safe. No arm raises it. -/
  | notModelled (mnemonic : String)
  /-- Raised by `step` for a load outside `Unloaded`: R222 enables a load only there and the source
  does not define a second one (D30, S18 `refuse`). Safe. -/
  | loadNotEnabled
deriving DecidableEq, Repr

/-- The outcome of an instruction or a step. -/
abbrev Result := Host.Outcome State Fault Refusal

end Sys2Proof.Machine
end

