-- ==== Sys2Proof/Machine/Ops.lean ====
section
/-! DEFINITION. The named operations over memory, registers, the stack and the environment's answers,
and taking an exception (60_exceptions.md R191). -/

namespace Sys2Proof.Machine

open Sys2Proof.Config

/-! ### Memory (20_memory.md) -/

/-- The 80 bytes of the font table (R69). PRESUMED: the spec has them from general knowledge (D24;
log 12). -/
def fontTable : List Byte :=
  [0xF0, 0x90, 0x90, 0x90, 0xF0, 0x20, 0x60, 0x20, 0x20, 0x70] ++
  [0xF0, 0x10, 0xF0, 0x80, 0xF0, 0xF0, 0x10, 0xF0, 0x10, 0xF0] ++
  [0x90, 0x90, 0xF0, 0x10, 0x10, 0xF0, 0x80, 0xF0, 0x10, 0xF0] ++
  [0xF0, 0x80, 0xF0, 0x90, 0xF0, 0xF0, 0x10, 0x20, 0x40, 0x40] ++
  [0xF0, 0x90, 0xF0, 0x90, 0xF0, 0xF0, 0x90, 0xF0, 0x10, 0xF0] ++
  [0xF0, 0x90, 0xF0, 0x90, 0x90, 0xE0, 0x90, 0xE0, 0x90, 0xE0] ++
  [0xF0, 0x80, 0x80, 0x80, 0xF0, 0xE0, 0x90, 0x90, 0x90, 0xE0] ++
  [0xF0, 0x80, 0xF0, 0x80, 0xF0, 0xF0, 0x80, 0xF0, 0x80, 0x80]

/-- What an unlisted address reads as: the contents after reset, the font table at 0x050 to 0x09F and
0x00 elsewhere (R43, R62, D8; log 12). -/
def Memory.background (a : Nat) : Byte :=
  if fontAddress ≤ a then fontTable.getD (a - fontAddress) 0 else 0

/-- One byte of memory. -/
def Memory.read (m : Memory) (a : Nat) : Byte :=
  match m with
  | [] => Memory.background a
  | (k, v) :: rest => if k = a then v else Memory.read rest a

/-- The cells of `m` other than those at `a`. -/
def Memory.erase (m : Memory) (a : Nat) : Memory :=
  match m with
  | [] => []
  | (k, v) :: rest => if k = a then Memory.erase rest a else (k, v) :: Memory.erase rest a

/-- A cell put before the first one of a greater address. -/
def Memory.insert (m : Memory) (a : Nat) (b : Byte) : Memory :=
  match m with
  | [] => [(a, b)]
  | (k, v) :: rest => if a < k then (a, b) :: (k, v) :: rest else (k, v) :: Memory.insert rest a b

/-- `MemWrite(a, 1, b)` of R11, keeping the canonical form: a byte equal to what an unlisted address
reads as is not listed. -/
def Memory.write (m : Memory) (a : Nat) (b : Byte) : Memory :=
  if b = Memory.background a then Memory.erase m a else Memory.insert (Memory.erase m a) a b

/-- Every address of the list is above `lo`, below the memory's size and strictly rising, and no entry
is equal to what an unlisted address reads as. -/
def Memory.wfAbove (lo : Nat) (m : Memory) : Bool :=
  match m with
  | [] => true
  | (k, v) :: rest =>
    decide (lo ≤ k) && decide (k < memorySize) && decide (v ≠ Memory.background k) &&
      Memory.wfAbove (k + 1) rest

/-- The canonical form of a memory. -/
def Memory.wf (m : Memory) : Bool := Memory.wfAbove 0 m

/-- The bytes stored at ascending addresses from `base` (R65, R67). -/
def Memory.writeBytes (m : Memory) (base : Nat) (bytes : List Byte) : Memory :=
  match bytes with
  | [] => m
  | b :: rest => Memory.writeBytes (Memory.write m base b) (base + 1) rest

/-- `count` bytes read at ascending addresses from `base` (R65, R67). -/
def Memory.readBytes (m : Memory) (base count : Nat) : List Byte :=
  match count with
  | 0 => []
  | n + 1 => Memory.read m base :: Memory.readBytes m (base + 1) n

/-! ### General registers (10_state.md R20) -/

/-- `x[r]`. -/
def State.reg (s : State) (r : RegIdx) : Byte := s.regs[r.toNat]'r.isLt

/-- `x[r] <- v`. No register is hard-wired (R20). -/
def State.setReg (s : State) (r : RegIdx) (v : Byte) : State :=
  { s with regs := s.regs.set r.toNat v r.isLt }

/-- The index of VF, the flag register (R21). -/
def vf : RegIdx := 0xF#4

/-- The register file with `f k` at every `k` up to `x` and the others unchanged. -/
def blockLoaded (regs : Vector Byte 16) (x : RegIdx) (f : Nat → Byte) : Vector Byte 16 :=
  Vector.ofFn fun k : Fin 16 => if k.val ≤ x.toNat then f k.val else regs[k.val]

/-- `x[k] <- f k` for every `k` up to `x`: the register side of a block load (41_memory_index.md
R145). -/
def State.setRegsUpTo (s : State) (x : RegIdx) (f : Nat → Byte) : State :=
  { s with regs := blockLoaded s.regs x f }

/-! ### Program counter (10_state.md R25) -/

/-- `pc <- target`. No transfer checks its target (42_control_flow.md R155). -/
def State.jumpTo (s : State) (target : Word) : State := { s with pc := target }

/-- A skip's condition moves `pc` one more instruction on (43_skip.md R160). -/
def State.skipIf (s : State) (condition : Bool) : State :=
  if condition then { s with pc := s.pc + 2 } else s

/-! ### Call stack (10_state.md R27) -/

/-- Whether the stack holds `STACK_DEPTH` entries; never with the unbounded stack (R193). -/
def State.stackFull (s : State) : Bool :=
  match s.params.stackDepth with
  | none => false
  | some depth => s.stack.length == depth

/-- Append a return address at the end of the stack. -/
def State.push (s : State) (ret : Word) : State := { s with stack := s.stack ++ [ret] }

/-- Remove the last entry of the stack. -/
def State.dropTop (s : State) : State := { s with stack := s.stack.dropLast }

/-! ### Taking an exception (60_exceptions.md R191) -/

/-- The fatal stop: `status <- Faulted(cause, info)` and nothing else changes (R191). There is no
handler, no saved state and no return from it but a reset (R212, R213). -/
def State.stopWith (s : State) (c : Cause) : State := { s with status := .faulted c }

/-- The fetch's advance of `pc` undone: `pc` is the address of the faulting instruction (R191). -/
def State.undoAdvance (s : State) : State := { s with pc := s.pc - 2 }

/-- `raise F(info)` by an executing instruction: the step changes no architectural state, `pc` holds
the instruction's own address, and the core is in `Faulted` (R11, R191). It is called before any
effect, on the state the fetch has advanced (log 4). -/
def raise (c : Cause) (s : State) : Result := .next (s.undoAdvance.stopWith c)

/-! ### The environment's answers (10_state.md R40, R42) -/

/-- `KeypadSample()`: the host's next answer; beyond the answers it has fixed, a free value (log 2). -/
def State.keypadSample (s : State) : BitVec 16 × State :=
  match s.keypadAnswers with
  | keys :: rest => (keys, { s with keypadAnswers := rest })
  | [] => (Config.keypadSample s.draws, { s with draws := s.draws + 1 })

/-- `RandomByte()`: the host's next answer; beyond the answers it has fixed, a free value (log 2). -/
def State.randomByte (s : State) : Byte × State :=
  match s.randomAnswers with
  | r :: rest => (r, { s with randomAnswers := rest })
  | [] => (Config.randomByte s.draws, { s with draws := s.draws + 1 })

/-- The preference `GetKey` resolves its free choice with; beyond the ones fixed, a free value (R171;
log 2, log 3). -/
def State.keyPreference (s : State) : Nibble × State :=
  match s.keyChoices with
  | c :: rest => (c, { s with keyChoices := rest })
  | [] => (Config.keyChoice s.draws, { s with draws := s.draws + 1 })

/-- The lowest pressed key at or above `k` within `fuel` keys, 0 if there is none. -/
def lowestPressed (keys : BitVec 16) (k fuel : Nat) : Nibble :=
  match fuel with
  | 0 => 0
  | n + 1 => if keys.getLsbD k then BitVec.ofNat 4 k else lowestPressed keys (k + 1) n

/-- The key `GetKey` reports: the preferred one if it is pressed, else the lowest pressed. Every
pressed key is the answer for some preference, and only pressed keys are (R171, D18; log 3). -/
def pickKey (keys : BitVec 16) (preference : Nibble) : Nibble :=
  if keys.getLsbD preference.toNat then preference else lowestPressed keys 0 16

end Sys2Proof.Machine
end

