-- ==== Sys2Proof/Machine/Fetch.lean ====
section
/-! DEFINITION. The fetch check and the fetch of 30_encoding.md R103, lines 1 to 4. -/

namespace Sys2Proof.Machine

open Sys2Proof.Config

/-- What lines 1 to 4 of R103 come to. -/
inductive FetchResult where
  /-- The step ends before a fetch, in this state. -/
  | ended (s : State)
  /-- The instruction word, and the state with `pc` advanced. -/
  | fetched (w : Word) (s : State)
deriving DecidableEq, Repr

/-- `pc` is even and at least 0x200 (R103 line 1, R194). -/
def pcLegal (pc : Word) : Bool := pc.getLsbD 0 == false && decide (loadAddress ≤ pc.toNat)

/-- The big-endian instruction word at an address (20_memory.md R64). -/
def State.wordAt (s : State) (a : Nat) : Word :=
  wordOfBytes (s.mem.read a) (s.mem.read (a + 1))

/-- "Advances by 2 per fetch" (R23, R103 line 4). -/
def State.advance (s : State) : State := { s with pc := s.pc + 2 }

/-- Lines 1 to 4 of R103: the `PcInvariantFault` test, then the termination test, computed without
wrap, then the fetch and the advance (R199; log 16). -/
def fetch (s : State) : FetchResult :=
  if !pcLegal s.pc then .ended (s.stopWith (.pcInvariantFault s.pc))
  else if s.pc.toNat + 2 > s.loadEnd.toNat then .ended { s with status := .halted }
  else .fetched (s.wordAt s.pc.toNat) s.advance

end Sys2Proof.Machine
end

