-- ==== Sys2Proof/Machine/Agents.lean ====
section
/-! DEFINITION. The moves of the agents other than the CPU (60_exceptions.md R200 to R205,
70_reset_and_hazards.md R220 to R223), and what the machine puts out. -/

namespace Sys2Proof.Machine

open Sys2Proof.Config

/-- A timer at 0 stays at 0; above 0 it goes down by 1 (R202). -/
def countDown (t : Byte) : Byte := if t.toNat > 0 then t - 1 else t

/-- `TickDelay` (R202). -/
def State.tickDelay (s : State) : State := { s with dt := countDown s.dt }

/-- `TickSound` (R202). -/
def State.tickSound (s : State) : State := { s with st := countDown s.st }

/-- The display refresh, `shown <- fb` (R204). -/
def State.refresh (s : State) : State := { s with shown := s.fb }

/-- The tone output, `ST > 0` (10_state.md R41). -/
def State.tone (s : State) : Bool := decide (s.st.toNat > 0)

/-- The host's reset, in any status (R220): every piece of core state at its R43 value. The
parameters, the external surface and what the environment has fixed of its coming moves are not core
state and stay (log 7, log 8). -/
def State.hostReset (s : State) : State :=
  { State.reset with
    params := s.params, shown := s.shown, schedule := s.schedule, keypadAnswers := s.keypadAnswers,
    randomAnswers := s.randomAnswers, keyChoices := s.keyChoices, draws := s.draws }

/-- Whether a program fits before address 4096 (R223). -/
def programFits (program : List Byte) : Bool := decide (loadAddress + program.length ≤ memorySize)

/-- `Load(program)` of R222, with the failure of R223. -/
def State.loadProgram (s : State) (program : List Byte) : State :=
  if programFits program then
    { s with
      mem := s.mem.writeBytes loadAddress program
      loadEnd := BitVec.ofNat 13 (loadAddress + program.length)
      pc := BitVec.ofNat 16 loadAddress
      status := .running }
  else { s with status := .loadFailed }

/-- A load is enabled only in `Unloaded` (R222, D30; log 6). -/
def hostLoad (s : State) (program : List Byte) : Result :=
  match s.status with
  | .unloaded => .next (s.loadProgram program)
  | .running | .halted | .loadFailed | .faulted _ => .refused .loadNotEnabled

/-- An agent other than the host moves only while `status = Running` (R201, R202, R205, D29; log 5). -/
def whileRunning (s : State) (move : State → Result) : Result :=
  match s.status with
  | .running => move s
  | .unloaded => .fault .awaitingLoad
  | .loadFailed => .fault .loadFailed
  | .halted => .fault .halted
  | .faulted c => .fault (.faulted c)

/-- One loop iteration of the Orchestrator: if its domain is due, one CPU step, then the tick of each
timer, then one refresh (R203, D34). It is one way to fill `State.schedule`; the schedule may hold any
other order too (D22; log 1). -/
def loopIteration (cpuDue timersDue displayDue : Bool) : List Event :=
  (if cpuDue then [.cpu] else []) ++ (if timersDue then [.tickDelay, .tickSound] else []) ++
    (if displayDue then [.refresh] else [])

end Sys2Proof.Machine
end

