-- ==== Sys2Proof/Machine/Operands.lean ====
section
/-! DEFINITION. The operand forms of the instruction set (30_encoding.md R92, 41_memory_index.md R146):
register, immediate, absolute address, address plus `x[0]`, and the only memory form, `I` plus a
constant index; and the operands a rule restricts to 0 to 15. -/

namespace Sys2Proof.Machine

open Sys2Proof.Config

/-- The address operand, zero-extended to 16 bits (R92). -/
def absoluteTarget (nnn : Addr12) : Word := nnn.setWidth 16

/-- `zext_16(NNN) + x[0]`, 0x0000 to 0x10FE, not reduced modulo 4096 (42_control_flow.md R153, D3;
log 16). -/
def offsetTarget (nnn : Addr12) (s : State) : Word := nnn.setWidth 16 + (s.reg 0).setWidth 16

/-- The effective address of element `k`: `I + k` over the integers from the full 16-bit `I` (R146). -/
def State.elementAddress (s : State) (k : Nat) : Nat := s.index.toNat + k

/-- Whether `count` bytes from `I` lie in the memory: no byte at all, or the last address at most
4095 (20_memory.md R63). -/
def State.rangeFits (s : State) (count : Nat) : Bool :=
  count == 0 || decide (s.elementAddress (count - 1) ≤ 4095)

/-- The whole address range of an instruction is checked before any of its effects; outside the
memory it raises `MemoryOutOfRange(I)` (R63, R146, R195). -/
def withRange (count : Nat) (s : State) (effect : State → Result) : Result :=
  if s.rangeFits count then effect s else raise (.memoryOutOfRange s.index) s

/-- A key number operand: above 15 it raises `KeyIndexOutOfRange`, before the keypad is sampled
(43_skip.md R165, 60_exceptions.md R196). -/
def withKeyIndex (k : Byte) (s : State) (effect : State → Result) : Result :=
  if k.toNat ≤ 15 then effect s else raise (.keyIndexOutOfRange k) s

/-- A font digit operand: above 15 it raises `FontDigitOutOfRange` (41_memory_index.md R142,
60_exceptions.md R197). -/
def withFontDigit (d : Byte) (s : State) (effect : State → Result) : Result :=
  if d.toNat ≤ 15 then effect s else raise (.fontDigitOutOfRange d) s

/-- `pointChar(digit)`: `0x50 + 5·digit` (41_memory_index.md R142). -/
def glyphAddress (d : Byte) : Word := BitVec.ofNat 16 (fontAddress + glyphBytes * d.toNat)

/-- `toDecimal(value)`: three decimal digits, most significant first (41_memory_index.md R143). -/
def decimalDigits (v : Byte) : List Byte :=
  [BitVec.ofNat 8 (v.toNat / 100), BitVec.ofNat 8 (v.toNat / 10 % 10), BitVec.ofNat 8 (v.toNat % 10)]

/-- `x[0]` to `x[X]`, as a block store takes them (41_memory_index.md R144). -/
def State.regsUpTo (s : State) (x : RegIdx) : List Byte :=
  (List.range (x.toNat + 1)).map fun k => s.reg (BitVec.ofNat 4 k)

end Sys2Proof.Machine
end

