-- ==== Sys2Proof/Machine/Flags.lean ====
section
/-! DEFINITION. The flag computations (10_state.md R21, R22; 40_register_alu.md R132, R133). The only
flag is VF, and a flag write stores 0x00 or 0x01. -/

namespace Sys2Proof.Machine

/-- The byte a flag write stores (R21). -/
def flagByte (b : Bool) : Byte := if b then 0x01 else 0x00

/-- Carry-out of an 8-bit addition: the unwrapped sum exceeds 255 (R126, R133). -/
def carryOut (a b : Byte) : Bool := decide (a.toNat + b.toNat > 255)

/-- No borrow in `a − b`: `a ≥ b`, including `a = b` (R127, R133). -/
def noBorrow (a b : Byte) : Bool := decide (a.toNat ≥ b.toNat)

/-- Bit 0 of the operand, shifted out by a right shift (R128). -/
def lowBit (a : Byte) : Bool := a.getLsbD 0

/-- Bit 7 of the operand, shifted out by a left shift (R130). -/
def highBit (a : Byte) : Bool := a.getLsbD 7

/-- Range overflow of `AddToIndex`: the unwrapped sum exceeds 0xFFF (41_memory_index.md R141, D11;
log 15). -/
def indexOverflow (i : Word) (a : Byte) : Bool := decide (i.toNat + a.toNat > 0xFFF)

/-- Write VF as a flag. -/
def State.setFlag (s : State) (b : Bool) : State := s.setReg vf (flagByte b)

/-- The result to `x[X]`, then the flag to VF: the flag write lands last (R132, D12; log 15). -/
def State.setResultThenFlag (s : State) (x : RegIdx) (result : Byte) (flag : Bool) : State :=
  (s.setReg x result).setFlag flag

end Sys2Proof.Machine
end

