-- ==== Sys2Proof/Machine/Alu.lean ====
section
/-! DEFINITION. The register and ALU instructions (40_register_alu.md). Each meaning is applied to the
state the fetch has advanced; none touches memory, `pc`, `I`, the stack, the timers or the
framebuffer, and none can fault. -/

namespace Sys2Proof.Machine

/-- `6XNN` (R120). -/
def execSetRegister (x : RegIdx) (nn : Byte) (s : State) : Result := .next (s.setReg x nn)

/-- `7XNN` (R121): addition modulo 256; VF is not written as a carry (D13; log 15). -/
def execAddConstant (x : RegIdx) (nn : Byte) (s : State) : Result := .next (s.setReg x (s.reg x + nn))

/-- `8XY0` (R122). -/
def execCopyRegister (x y : RegIdx) (s : State) : Result := .next (s.setReg x (s.reg y))

/-- `8XY1` (R123): VF is not written. -/
def execOr (x y : RegIdx) (s : State) : Result := .next (s.setReg x (s.reg x ||| s.reg y))

/-- `8XY2` (R124): VF is not written. -/
def execAnd (x y : RegIdx) (s : State) : Result := .next (s.setReg x (s.reg x &&& s.reg y))

/-- `8XY3` (R125): VF is not written. -/
def execXOr (x y : RegIdx) (s : State) : Result := .next (s.setReg x (s.reg x ^^^ s.reg y))

/-- `8XY4` (R126). -/
def execAdd (x y : RegIdx) (s : State) : Result :=
  .next (s.setResultThenFlag x (s.reg x + s.reg y) (carryOut (s.reg x) (s.reg y)))

/-- `8XY5` (R127): `dest − source`. -/
def execSubtractForward (x y : RegIdx) (s : State) : Result :=
  .next (s.setResultThenFlag x (s.reg x - s.reg y) (noBorrow (s.reg x) (s.reg y)))

/-- `8XY6` (R128): `x[Y]` is neither read nor written. -/
def execRightShift (x : RegIdx) (s : State) : Result :=
  .next (s.setResultThenFlag x (s.reg x >>> 1) (lowBit (s.reg x)))

/-- `8XY7` (R129): `source − dest`. -/
def execSubtractBackward (x y : RegIdx) (s : State) : Result :=
  .next (s.setResultThenFlag x (s.reg y - s.reg x) (noBorrow (s.reg y) (s.reg x)))

/-- `8XYE` (R130): `x[Y]` is neither read nor written. -/
def execLeftShift (x : RegIdx) (s : State) : Result :=
  .next (s.setResultThenFlag x (s.reg x <<< 1) (highBit (s.reg x)))

/-- `CXNN` (R131): the random byte is a free input at every execution (D15; log 2). -/
def execRandom (x : RegIdx) (nn : Byte) (s : State) : Result :=
  .next (s.randomByte.2.setReg x (s.randomByte.1 &&& nn))

end Sys2Proof.Machine
end

