-- ==== Sys2Proof/Machine/Control.lean ====
section
/-! DEFINITION. The control-flow instructions and Unrecognized (42_control_flow.md). `pc` is already the
address after the instruction when a meaning begins. -/

namespace Sys2Proof.Machine

/-- `1NNN` (R150). -/
def execJump (nnn : Addr12) (s : State) : Result := .next (s.jumpTo (absoluteTarget nnn))

/-- `2NNN` (R151): `StackOverflow` only under a finite `STACK_DEPTH`. -/
def execPushSubroutine (nnn : Addr12) (s : State) : Result :=
  if s.stackFull then raise (.stackOverflow s.stack.length) s
  else .next ((s.push s.pc).jumpTo (absoluteTarget nnn))

/-- `00EE` (R152). -/
def execPopSubroutine (s : State) : Result :=
  match s.stack.getLast? with
  | none => raise .stackUnderflow s
  | some t => .next (s.dropTop.jumpTo t)

/-- `BNNN` (R153): the offset register is always `x[0]`. -/
def execJumpWithOffset (nnn : Addr12) (s : State) : Result := .next (s.jumpTo (offsetTarget nnn s))

/-- Every word of R101 (R154): the fetch's advance is its whole effect. -/
def execUnrecognized (_w : Word) (s : State) : Result := .next s

end Sys2Proof.Machine
end

