-- ==== Sys2Proof/Machine/Display.lean ====
section
/-! DEFINITION. The display instructions and the drawing and collision unit (45_display.md). -/

namespace Sys2Proof.Machine

open Sys2Proof.Config

/-- `fb[col][row]` (10_state.md R30); a position outside the grid has no pixel. -/
def Framebuffer.pixel (fb : Framebuffer) (col row : Nat) : Bool :=
  if h : row < 32 then fb[row].getLsbD col else false

/-- `fb[col][row] <- fb[col][row] XOR 1`; a position outside the grid has no pixel. -/
def Framebuffer.toggle (fb : Framebuffer) (col row : Nat) : Framebuffer :=
  if h : row < 32 then fb.set row (fb[row] ^^^ BitVec.twoPow 64 col) else fb

/-- All 2048 bits 0. -/
def Framebuffer.clear : Framebuffer := Vector.replicate 32 0

/-- The framebuffer and the collision flag while a sprite is drawn. -/
structure Canvas where
  fb : Framebuffer
  collision : Bool
deriving DecidableEq, Repr

/-- The inner loop's body of R181, for bit `c` of a row byte counted from the left: beyond column 63
the pixel is clipped (R182). -/
def Canvas.plotBit (v : Canvas) (x0 yy : Nat) (byte : Byte) (c : Nat) : Canvas :=
  if x0 + c ≤ 63 ∧ byte.getLsbD (7 - c) = true then
    { fb := v.fb.toggle (x0 + c) yy, collision := v.collision || v.fb.pixel (x0 + c) yy }
  else v

/-- The inner loop of R181 over the 8 bits of a row, bit 7 leftmost (R182); beyond row 31 the whole
row is clipped. -/
def Canvas.plotRow (v : Canvas) (x0 yy : Nat) (byte : Byte) : Canvas :=
  if yy ≤ 31 then (List.range 8).foldl (fun v c => v.plotBit x0 yy byte c) v else v

/-- The outer loop of R181: the first byte on row `yy`, each next one a row further down (R182). -/
def Canvas.plotRows (v : Canvas) (x0 yy : Nat) (rows : List Byte) : Canvas :=
  match rows with
  | [] => v
  | byte :: rest => Canvas.plotRows (v.plotRow x0 yy byte) x0 (yy + 1) rest

/-- `00E0` (R180): VF is not written. -/
def execClearScreen (s : State) : Result := .next { s with fb := Framebuffer.clear }

/-- The starting column of a sprite, `x[X] mod 64` (R181). -/
def State.spriteColumn (s : State) (x : RegIdx) : Nat := (s.reg x).toNat % screenColumns

/-- The starting row of a sprite, `x[Y] mod 32` (R181). -/
def State.spriteRow (s : State) (y : RegIdx) : Nat := (s.reg y).toNat % screenRows

/-- The sprite of a height drawn from `I` on the framebuffer (R181). -/
def State.drawSprite (s : State) (x y : RegIdx) (height : Nat) : Canvas :=
  Canvas.plotRows { fb := s.fb, collision := false } (s.spriteColumn x) (s.spriteRow y)
    (s.mem.readBytes s.index.toNat height)

/-- `DXYN` (R181): all bytes are read and both coordinates too before VF is written. -/
def execDisplay (x y : RegIdx) (n : Nibble) (s : State) : Result :=
  withRange n.toNat s fun s =>
    .next ({ s with fb := (s.drawSprite x y n.toNat).fb }.setFlag (s.drawSprite x y n.toNat).collision)

end Sys2Proof.Machine
end

