-- ==== Sys2Proof/Machine/Index.lean ====
section
/-! DEFINITION. The index-register and memory instructions (41_memory_index.md). None changes `pc`
beyond the fetch's advance, the stack, the timers or the framebuffer, and none of the block transfers
changes `I` (R146, D14; log 15). -/

namespace Sys2Proof.Machine

/-- `ANNN` (R140): no range check when `I` is set. -/
def execSetIndex (nnn : Addr12) (s : State) : Result := .next { s with index := absoluteTarget nnn }

/-- The flag write of `AddToIndex`, governed by `QUIRK_ADD_INDEX_FLAG` (R141, D11). -/
def State.quirkFlag (s : State) (overflow : Bool) : State :=
  if s.params.quirkAddIndexFlag then s.setFlag overflow else s

/-- `FX1E` (R141): the sum wraps modulo 65536; `x[X]` is read before any write. -/
def execAddToIndex (x : RegIdx) (s : State) : Result :=
  .next ({ s with index := s.index + (s.reg x).setWidth 16 }.quirkFlag
    (indexOverflow s.index (s.reg x)))

/-- `FX29` (R142): it does not read memory. -/
def execPointChar (x : RegIdx) (s : State) : Result :=
  withFontDigit (s.reg x) s fun s => .next { s with index := glyphAddress (s.reg x) }

/-- `FX33` (R143): the digits at `I`, `I + 1`, `I + 2`. -/
def execToDecimal (x : RegIdx) (s : State) : Result :=
  withRange 3 s fun s =>
    .next { s with mem := s.mem.writeBytes s.index.toNat (decimalDigits (s.reg x)) }

/-- `FX55` (R144): `x[0]` to `x[X]` at `I` to `I + X`; `I` is unchanged. -/
def execStoreRegisters (x : RegIdx) (s : State) : Result :=
  withRange (x.toNat + 1) s fun s =>
    .next { s with mem := s.mem.writeBytes s.index.toNat (s.regsUpTo x) }

/-- `FX65` (R145): `x[0]` to `x[X]` from `I` to `I + X`; `I` is unchanged. -/
def execLoadRegisters (x : RegIdx) (s : State) : Result :=
  withRange (x.toNat + 1) s fun s =>
    .next (s.setRegsUpTo x fun k => s.mem.read (s.elementAddress k))

end Sys2Proof.Machine
end

