-- ==== Sys2Proof/Machine/Skip.lean ====
section
/-! DEFINITION. The skip instructions (43_skip.md). -/

namespace Sys2Proof.Machine

/-- `3XNN` (R161). -/
def execSkipEqualConstant (x : RegIdx) (nn : Byte) (s : State) : Result :=
  .next (s.skipIf (s.reg x == nn))

/-- `4XNN` (R162). -/
def execSkipNotEqualConstant (x : RegIdx) (nn : Byte) (s : State) : Result :=
  .next (s.skipIf (s.reg x != nn))

/-- `5XY0` (R163). -/
def execSkipEqualRegister (x y : RegIdx) (s : State) : Result :=
  .next (s.skipIf (s.reg x == s.reg y))

/-- `9XY0` (R164). -/
def execSkipNotEqualRegister (x y : RegIdx) (s : State) : Result :=
  .next (s.skipIf (s.reg x != s.reg y))

/-- `EX9E` (R165): the level of the key at this moment. -/
def execSkipIfPressed (x : RegIdx) (s : State) : Result :=
  withKeyIndex (s.reg x) s fun s =>
    .next (s.keypadSample.2.skipIf (s.keypadSample.1.getLsbD (s.reg x).toNat))

/-- `EXA1` (R166). -/
def execSkipIfNotPressed (x : RegIdx) (s : State) : Result :=
  withKeyIndex (s.reg x) s fun s =>
    .next (s.keypadSample.2.skipIf (!s.keypadSample.1.getLsbD (s.reg x).toNat))

end Sys2Proof.Machine
end

