-- ==== Sys2Proof/Machine/TimersKeys.lean ====
section
/-! DEFINITION. The timer-transfer and key-wait instructions (44_timers_keys.md). None can fault. -/

namespace Sys2Proof.Machine

/-- `FX07` (R170). -/
def execCopyDelayToRegister (x : RegIdx) (s : State) : Result := .next (s.setReg x s.dt)

/-- `FX15` (R172). -/
def execCopyRegisterToDelay (x : RegIdx) (s : State) : Result := .next { s with dt := s.reg x }

/-- `FX18` (R173). -/
def execCopyRegisterToSound (x : RegIdx) (s : State) : Result := .next { s with st := s.reg x }

/-- What `GetKey` does with a sample: no key pressed, back to its own address; else the number of a
pressed key to `x[X]`, which one being a free choice (R171, D18; log 3). -/
def State.takeKey (s : State) (x : RegIdx) (keys : BitVec 16) : State :=
  if keys = 0 then { s with pc := s.pc - 2 }
  else s.keyPreference.2.setReg x ((pickKey keys s.keyPreference.1).setWidth 8)

/-- `FX0A` (R171). -/
def execGetKey (x : RegIdx) (s : State) : Result :=
  .next (s.keypadSample.2.takeKey x s.keypadSample.1)

end Sys2Proof.Machine
end

