-- ==== Sys2Proof/Machine/Dispatch.lean ====
section
/-! DEFINITION. `Execute` of 30_encoding.md R103: one arm per instruction, in the table's order. The
state is the one the fetch has advanced. -/

namespace Sys2Proof.Machine

def exec (i : Instr) (s : State) : Host.Outcome State Fault Refusal :=
  match i with
  | .clearScreen => Sys2Proof.Machine.execClearScreen s
  | .popSubroutine => Sys2Proof.Machine.execPopSubroutine s
  | .jump nnn => Sys2Proof.Machine.execJump nnn s
  | .pushSubroutine nnn => Sys2Proof.Machine.execPushSubroutine nnn s
  | .skipEqualConstant x nn => Sys2Proof.Machine.execSkipEqualConstant x nn s
  | .skipNotEqualConstant x nn => Sys2Proof.Machine.execSkipNotEqualConstant x nn s
  | .skipEqualRegister x y => Sys2Proof.Machine.execSkipEqualRegister x y s
  | .setRegister x nn => Sys2Proof.Machine.execSetRegister x nn s
  | .addConstant x nn => Sys2Proof.Machine.execAddConstant x nn s
  | .copyRegister x y => Sys2Proof.Machine.execCopyRegister x y s
  | .or x y => Sys2Proof.Machine.execOr x y s
  | .and x y => Sys2Proof.Machine.execAnd x y s
  | .xOr x y => Sys2Proof.Machine.execXOr x y s
  | .add x y => Sys2Proof.Machine.execAdd x y s
  | .subtractForward x y => Sys2Proof.Machine.execSubtractForward x y s
  | .rightShift x => Sys2Proof.Machine.execRightShift x s
  | .subtractBackward x y => Sys2Proof.Machine.execSubtractBackward x y s
  | .leftShift x => Sys2Proof.Machine.execLeftShift x s
  | .skipNotEqualRegister x y => Sys2Proof.Machine.execSkipNotEqualRegister x y s
  | .setIndex nnn => Sys2Proof.Machine.execSetIndex nnn s
  | .jumpWithOffset nnn => Sys2Proof.Machine.execJumpWithOffset nnn s
  | .random x nn => Sys2Proof.Machine.execRandom x nn s
  | .display x y n => Sys2Proof.Machine.execDisplay x y n s
  | .skipIfPressed x => Sys2Proof.Machine.execSkipIfPressed x s
  | .skipIfNotPressed x => Sys2Proof.Machine.execSkipIfNotPressed x s
  | .copyDelayToRegister x => Sys2Proof.Machine.execCopyDelayToRegister x s
  | .getKey x => Sys2Proof.Machine.execGetKey x s
  | .copyRegisterToDelay x => Sys2Proof.Machine.execCopyRegisterToDelay x s
  | .copyRegisterToSound x => Sys2Proof.Machine.execCopyRegisterToSound x s
  | .addToIndex x => Sys2Proof.Machine.execAddToIndex x s
  | .pointChar x => Sys2Proof.Machine.execPointChar x s
  | .toDecimal x => Sys2Proof.Machine.execToDecimal x s
  | .storeRegisters x => Sys2Proof.Machine.execStoreRegisters x s
  | .loadRegisters x => Sys2Proof.Machine.execLoadRegisters x s
  | .unrecognized w => Sys2Proof.Machine.execUnrecognized w s

end Sys2Proof.Machine
end

