-- ==== Sys2Proof/Machine/Step.lean ====
section
/-! DEFINITION. One step of the machine: the move of the agent whose turn it is (60_exceptions.md R200),
the CPU's being 30_encoding.md R103. -/

namespace Sys2Proof.Machine

open Sys2Proof.Config

/-- One CPU step (R103): the fetch check, the fetch, `Decode` and `Execute`. -/
def cpuStep (s : State) : Host.Outcome State Fault Refusal :=
  match fetch s with
  | .ended t => .next t
  | .fetched w t => exec (decodeWord w) t

/-- The move of the agent an event names, on the state with the event taken off the schedule. -/
def runEvent (e : Event) (s : State) : Host.Outcome State Fault Refusal :=
  match e with
  | .cpu => whileRunning s cpuStep
  | .tickDelay => whileRunning s fun s => .next s.tickDelay
  | .tickSound => whileRunning s fun s => .next s.tickSound
  | .refresh => whileRunning s fun s => .next s.refresh
  | .load program => hostLoad s program
  | .reset => .next s.hostReset

/-- One atomic move (R200): the event at the head of the schedule; with an empty schedule the CPU's
(log 1). -/
def step (s : State) : Host.Outcome State Fault Refusal :=
  match s.schedule with
  | [] => runEvent .cpu s
  | e :: rest => runEvent e { s with schedule := rest }

/-- Whether the two bytes at `pc` can be fetched once they are loaded. -/
def pcFetchable (pc : Word) : Bool := pcLegal pc && decide (pc.toNat + 2 ≤ memorySize)

/-- The address the next instruction is put at: `pc`, or 0x200 where nothing can be fetched at `pc`. -/
def State.fetchAddress (s : State) : Word :=
  if pcFetchable s.pc then s.pc else BitVec.ofNat 16 loadAddress

/-- The state whose very next step runs the given word (log 17): the word stands big-endian at the
fetch address, the load-end boundary is past it, the core is `Running` and the CPU moves first. It
stands for the host's load (R222). -/
def State.withFetchWord (s : State) (nbits w : Nat) : State :=
  { s with
    mem := (s.mem.write s.fetchAddress.toNat (bytesOfWord (tableWord nbits w)).1).write
      (s.fetchAddress.toNat + 1) (bytesOfWord (tableWord nbits w)).2
    pc := s.fetchAddress
    loadEnd :=
      if s.fetchAddress.toNat + 2 ≤ s.loadEnd.toNat then s.loadEnd
      else BitVec.ofNat 13 (s.fetchAddress.toNat + 2)
    status := .running
    schedule := .cpu :: s.schedule }

end Sys2Proof.Machine
end

