-- ==== Sys2Proof/WellFormed.lean ====
section
/-! DEFINITION. Which instruction terms stand for an instruction of the machine. The operand types of
Syntax.lean admit exactly the operand values of R92, so the one check is on `Unrecognized`. -/

namespace Sys2Proof

/-- An instruction is well formed unless it is an `Unrecognized` that carries a word one of rows 1 to
34 of R100 takes (R101; log 9). -/
def Instr.wellFormed : Instr → Bool
  | .unrecognized w => !isDefinedWord w
  | .clearScreen | .popSubroutine | .jump _ | .pushSubroutine _ => true
  | .skipEqualConstant _ _ | .skipNotEqualConstant _ _ | .skipEqualRegister _ _ => true
  | .setRegister _ _ | .addConstant _ _ | .copyRegister _ _ | .or _ _ | .and _ _ | .xOr _ _ => true
  | .add _ _ | .subtractForward _ _ | .rightShift _ | .subtractBackward _ _ | .leftShift _ => true
  | .skipNotEqualRegister _ _ | .setIndex _ | .jumpWithOffset _ | .random _ _ => true
  | .display _ _ _ | .skipIfPressed _ | .skipIfNotPressed _ | .copyDelayToRegister _ => true
  | .getKey _ | .copyRegisterToDelay _ | .copyRegisterToSound _ | .addToIndex _ => true
  | .pointChar _ | .toDecimal _ | .storeRegisters _ | .loadRegisters _ => true

end Sys2Proof
end

