-- ==== Sys2Proof/Safety.lean ====
section
/-! DEFINITION. The terms the claims are made in: what an instruction leaves alone, what a sprite is on
the grid, the invariant of the machine's states, and what counts as a fair and as a safe run. -/

namespace Sys2Proof.Machine

/-! ### Frames -/

/-- Every general register not in `rs` holds in `t` what it holds in `s`. -/
def RegsKeptBut (rs : List RegIdx) (s t : State) : Prop := ∀ r, r ∉ rs → t.reg r = s.reg r

/-- Every byte of memory outside the `count` addresses from `base` reads in `t` as in `s`. -/
def MemKeptOutside (base count : Nat) (s t : State) : Prop :=
  ∀ a, a < base ∨ base + count ≤ a → t.mem.read a = s.mem.read a

/-- The instruction answers a next state in which `x[x]` holds `v` and nothing else has changed. -/
def WritesOnly (i : Instr) (s : State) (x : RegIdx) (v : Byte) : Prop :=
  ∃ t, exec i s = .next t ∧ t = { s with regs := t.regs } ∧ t.reg x = v ∧ RegsKeptBut [x] s t

/-- The instruction answers a next state in which `x[x]` holds the result, VF then the flag, 0x00 or
0x01, and nothing else has changed; where `x` is VF, the flag is what VF holds. -/
def WritesResultAndFlag (i : Instr) (s : State) (x : RegIdx) (result : Nat) (flag : Prop)
    [Decidable flag] : Prop :=
  ∃ t, exec i s = .next t ∧ t = { s with regs := t.regs } ∧ (x ≠ vf → (t.reg x).toNat = result) ∧
    (t.reg vf).toNat = (if flag then 1 else 0) ∧ RegsKeptBut [x, vf] s t

/-- The instruction raises the fault on `s`, a state the fetch has advanced: no architectural state
changes, `pc` is the instruction's own address, `status` is `Faulted` (R11, R191). -/
def Raises (i : Instr) (s : State) (c : Cause) : Prop :=
  exec i s = .next { s with pc := s.pc - 2, status := .faulted c }

/-- The instruction skips exactly when the condition holds (43_skip.md R160). -/
def SkipsWhen (i : Instr) (s : State) (condition : Prop) : Prop :=
  (condition → exec i s = .next { s with pc := s.pc + 2 }) ∧ (¬condition → exec i s = .next s)

/-! ### Turns and fetches -/

/-- It is the CPU's turn, and `rest` is the schedule after it. -/
def State.CpuMoves (s : State) (rest : List Event) : Prop :=
  s.schedule = .cpu :: rest ∨ (s.schedule = [] ∧ rest = [])

/-- A CPU step in this state fetches: `pc` is even, at least 0x200, and the two bytes at it are below
`loadEnd` (30_encoding.md R103). -/
def State.Fetches (s : State) : Prop :=
  s.pc.toNat % 2 = 0 ∧ 0x200 ≤ s.pc.toNat ∧ s.pc.toNat + 2 ≤ s.loadEnd.toNat

/-- The run is over: no agent but the host takes any further step (60_exceptions.md R205). -/
def State.RunOver (s : State) : Prop :=
  s.status = .halted ∨ s.status = .loadFailed ∨ ∃ c, s.status = .faulted c

/-! ### Sprites -/

/-- Whether the sprite a `Display(X, Y, N)` draws in `s` has a 1 bit on grid position (col, row): its
byte `r` lies on row `y0 + r`, bit 7 at column `x0` (45_display.md R181, R182). -/
def spriteBit (s : State) (x y : RegIdx) (n : Nibble) (col row : Nat) : Bool :=
  let x0 := (s.reg x).toNat % 64
  let y0 := (s.reg y).toNat % 32
  decide (x0 ≤ col ∧ col ≤ x0 + 7 ∧ y0 ≤ row ∧ row < y0 + n.toNat) &&
    (s.mem.read (s.index.toNat + (row - y0))).getLsbD (7 - (col - x0))

/-- Some in-grid pixel of the sprite is on in `s`, so that drawing it turns it off (R183). -/
def SpriteHits (s : State) (x y : RegIdx) (n : Nibble) : Prop :=
  ∃ col row, col < 64 ∧ row < 32 ∧ s.fb.pixel col row = true ∧ spriteBit s x y n col row = true

/-! ### Reset -/

/-- The reset table of 10_state.md R43 with the font bytes of 20_memory.md R69, written out once more
from the spec's tables. -/
def State.AtResetTable (t : State) : Prop :=
  (∀ r, t.reg r = 0) ∧ t.pc = 0x200 ∧ t.loadEnd = 0x200 ∧ t.index = 0 ∧ t.stack = [] ∧ t.dt = 0 ∧
  t.st = 0 ∧ t.tone = false ∧ (∀ col row, t.fb.pixel col row = false) ∧ t.status = .unloaded ∧
  (∀ a, a < 0x50 ∨ 0xA0 ≤ a → t.mem.read a = 0) ∧
  t.mem.readBytes 0x50 20 = [0xF0, 0x90, 0x90, 0x90, 0xF0, 0x20, 0x60, 0x20, 0x20, 0x70,
    0xF0, 0x10, 0xF0, 0x80, 0xF0, 0xF0, 0x10, 0xF0, 0x10, 0xF0] ∧
  t.mem.readBytes 0x64 20 = [0x90, 0x90, 0xF0, 0x10, 0x10, 0xF0, 0x80, 0xF0, 0x10, 0xF0,
    0xF0, 0x80, 0xF0, 0x90, 0xF0, 0xF0, 0x10, 0x20, 0x40, 0x40] ∧
  t.mem.readBytes 0x78 20 = [0xF0, 0x90, 0xF0, 0x90, 0xF0, 0xF0, 0x90, 0xF0, 0x10, 0xF0,
    0xF0, 0x90, 0xF0, 0x90, 0x90, 0xE0, 0x90, 0xE0, 0x90, 0xE0] ∧
  t.mem.readBytes 0x8C 20 = [0xF0, 0x80, 0x80, 0x80, 0xF0, 0xE0, 0x90, 0x90, 0x90, 0xE0,
    0xF0, 0x80, 0xF0, 0x80, 0xF0, 0xF0, 0x80, 0xF0, 0x80, 0x80]

/-! ### The invariant -/

/-- What a fault's recorded info says of the state it was raised in, which the fault left as it was
(60_exceptions.md R190, R191). -/
def Cause.Describes (c : Cause) (s : State) : Prop :=
  match c with
  | .stackUnderflow => s.stack = []
  | .stackOverflow depth => s.stack.length = depth ∧ s.params.stackDepth = some depth
  | .pcInvariantFault pc => pc = s.pc ∧ (pc.toNat % 2 = 1 ∨ pc.toNat < 0x200)
  | .memoryOutOfRange index => index = s.index ∧ 4095 < index.toNat + 15
  | .keyIndexOutOfRange value => 15 < value.toNat
  | .fontDigitOutOfRange value => 15 < value.toNat

/-- What holds of every state the machine can come to. -/
structure State.Inv (s : State) : Prop where
  /-- The memory is in its canonical form. -/
  memory : s.mem.wf = true
  /-- `loadEnd` is in 0x200 to 0x1000 inclusive (R24). -/
  loadEndRange : 0x200 ≤ s.loadEnd.toNat ∧ s.loadEnd.toNat ≤ 0x1000
  /-- The largest value `pc` can hold is 0x10FE (R25). -/
  pcRange : s.pc.toNat ≤ 0x10FE
  /-- A stacked return address is even, at least 0x202 (R152) and at most 0x1000. -/
  returns : ∀ e ∈ s.stack, e.toNat % 2 = 0 ∧ 0x202 ≤ e.toNat ∧ e.toNat ≤ 0x1000
  /-- The stack holds at most `STACK_DEPTH` entries (R27). -/
  depth : ∀ d, s.params.stackDepth = some d → s.stack.length ≤ d
  /-- Before a load the core is as reset left it (R224). -/
  unloaded : s.status = .unloaded → s.hostReset = s
  /-- A refused load has changed nothing but `status` (R223). -/
  loadFailed : s.status = .loadFailed → s.hostReset = { s with status := .unloaded }
  /-- A halted core stands where the fetch check ended the run (R228). -/
  halted : s.status = .halted →
    s.pc.toNat % 2 = 0 ∧ 0x200 ≤ s.pc.toNat ∧ s.loadEnd.toNat < s.pc.toNat + 2
  /-- A faulted core's info describes the state the fault left (R190, R191). -/
  faulted : ∀ c, s.status = .faulted c → c.Describes s

/-! ### Fair runs -/

/-- What is reached from `s` by the first `n` of an endless sequence of moves: at each point the step
whose event heads the schedule. -/
def afterMoves (moves : Nat → Event) (s : State) : Nat → Result
  | 0 => .next s
  | n + 1 =>
    match afterMoves moves s n with
    | .next t => step { t with schedule := moves n :: t.schedule }
    | .fault f => .fault f
    | .refused r => .refused r

/-- A running state the moves come to after `n` of them. -/
def RunningAt (moves : Nat → Event) (s : State) (n : Nat) (t : State) : Prop :=
  afterMoves moves s n = .next t ∧ t.status = .running

/-- Fairness (70_reset_and_hazards.md R233), of moves among which the host has none (R227): while
running, the CPU eventually steps, a timer above 0 is eventually ticked, and a framebuffer that is not
the one shown is eventually shown. -/
structure FairMoves (moves : Nat → Event) (s : State) : Prop where
  noHost : ∀ n, moves n = .cpu ∨ moves n = .tickDelay ∨ moves n = .tickSound ∨ moves n = .refresh
  cpu : ∀ n t, RunningAt moves s n t → ∃ m, n ≤ m ∧ moves m = .cpu
  delay : ∀ n t, RunningAt moves s n t → t.dt ≠ 0 → ∃ m, n ≤ m ∧ moves m = .tickDelay
  sound : ∀ n t, RunningAt moves s n t → t.st ≠ 0 → ∃ m, n ≤ m ∧ moves m = .tickSound
  refresh : ∀ n t, RunningAt moves s n t → t.shown ≠ t.fb → ∃ m, n ≤ m ∧ moves m = .refresh

/-- No CPU step of the moves executes `CopyRegisterToDelay`. -/
def NeverSetsDelay (moves : Nat → Event) (s : State) : Prop :=
  ∀ n t x, RunningAt moves s n t → moves n = .cpu → t.Fetches →
    decodeWord (t.wordAt t.pc.toNat) ≠ .copyRegisterToDelay x

/-! ### Safe runs -/

/-- The core has met no fatal condition. -/
def State.FaultFree (s : State) : Prop := ∀ c, s.status ≠ .faulted c

/-- No state within `k` steps has met a fatal condition. -/
def SafeFor (k : Nat) (s : State) : Prop :=
  ∀ j t, j ≤ k → Host.Core.run core j s = .next t → State.FaultFree t

/-- The run from `s` terminates normally within `k` steps (R228); a faulted run never does (R191). -/
def HaltsWithin (k : Nat) (s : State) : Prop :=
  ∃ j t, j ≤ k ∧ Host.Core.run core j s = .next t ∧ State.status t = .halted

end Sys2Proof.Machine
end

