-- ==== Sys2Proof/Certificates/Slice0/Obligations.lean ====
section
/-! DEFINITION. The statements for the provers. `R<n>` are the spec's numbered rules, `D<n>` its
decisions (92_eei_decisions.md), `log <n>` is notes/assumptions/<n>.md. A statement that rests on a
decision, a derived passage or general knowledge of the spec says so. -/

open Sys2Proof Sys2Proof.Machine

/-! ### Register and ALU instructions (40_register_alu.md) -/

/-- R120: `SetRegister` writes its immediate to `x[X]`, VF too if X = 15, and changes nothing else. -/
def Obligations.SetRegisterWritesItsImmediate : Prop :=
  ∀ (x : RegIdx) (nn : Byte) (s : State), WritesOnly (.setRegister x nn) s x nn

/-- `AddConstant` adds modulo 256 and leaves VF alone unless X = 15. That VF is not written as a carry
is the spec's decision D13 (log 15). -/
def Obligations.AddConstantWrapsWithoutFlag : Prop :=
  ∀ (x : RegIdx) (nn : Byte) (s : State),
    WritesOnly (.addConstant x nn) s x (BitVec.ofNat 8 (((s.reg x).toNat + nn.toNat) % 256))

/-- R122 to R125: the copy and the three bitwise operations write `x[X]` alone, bit by bit from the old
values; VF is written only as a destination. -/
def Obligations.CopyAndLogicWriteTheDestinationAlone : Prop :=
  ∀ (x y : RegIdx) (s : State),
    WritesOnly (.copyRegister x y) s x (s.reg y) ∧
    (∃ v, WritesOnly (.or x y) s x v ∧
      ∀ k, v.getLsbD k = ((s.reg x).getLsbD k || (s.reg y).getLsbD k)) ∧
    (∃ v, WritesOnly (.and x y) s x v ∧
      ∀ k, v.getLsbD k = ((s.reg x).getLsbD k && (s.reg y).getLsbD k)) ∧
    (∃ v, WritesOnly (.xOr x y) s x v ∧
      ∀ k, v.getLsbD k = ((s.reg x).getLsbD k ^^ (s.reg y).getLsbD k))

/-- R126: `Add`. The result modulo 256; VF is 1 exactly when the unwrapped sum exceeds 255, and is what
is left when X = 15 (the order is the spec's decision D12, log 15). -/
def Obligations.AddWrapsAndFlagsCarry : Prop :=
  ∀ (x y : RegIdx) (s : State),
    WritesResultAndFlag (.add x y) s x (((s.reg x).toNat + (s.reg y).toNat) % 256)
      ((s.reg x).toNat + (s.reg y).toNat > 255)

/-- R127 and R129: the two subtractions. The result wraps modulo 256; VF is 1 exactly when there is no
borrow, equality included, and is what is left when X = 15 (decision D12, log 15). -/
def Obligations.SubtractionsWrapAndFlagNoBorrow : Prop :=
  ∀ (x y : RegIdx) (s : State),
    WritesResultAndFlag (.subtractForward x y) s x (((s.reg x).toNat + 256 - (s.reg y).toNat) % 256)
      ((s.reg x).toNat ≥ (s.reg y).toNat) ∧
    WritesResultAndFlag (.subtractBackward x y) s x (((s.reg y).toNat + 256 - (s.reg x).toNat) % 256)
      ((s.reg y).toNat ≥ (s.reg x).toNat)

/-- R128 and R130: the shifts by one, VF taking the bit shifted out of the old `x[X]`; with X = 15 that
bit is what is left (decision D12, log 15). -/
def Obligations.ShiftsMoveOneBitIntoVF : Prop :=
  ∀ (x : RegIdx) (s : State),
    WritesResultAndFlag (.rightShift x) s x ((s.reg x).toNat / 2) ((s.reg x).toNat % 2 = 1) ∧
    WritesResultAndFlag (.leftShift x) s x (2 * (s.reg x).toNat % 256) ((s.reg x).toNat ≥ 128)

/-- `Random` completes in every state and writes some byte masked by NN to `x[X]`, changing nothing else
but what the host has still to answer; and when the host answers r, any byte, it writes r AND NN. The
instruction and its free byte are the spec's decision D15, from general knowledge (log 2, log 14). -/
def Obligations.RandomMasksAFreeByte : Prop :=
  ∀ (x : RegIdx) (nn : Byte) (s : State),
    (∃ t r, exec (.random x nn) s = .next t ∧ t.reg x = r &&& nn ∧ RegsKeptBut [x] s t ∧
      t = { s with regs := t.regs, randomAnswers := t.randomAnswers, draws := t.draws }) ∧
    (∀ (r : Byte) (rest : List Byte), s.randomAnswers = r :: rest →
      ∃ t, exec (.random x nn) s = .next t ∧ t.reg x = r &&& nn ∧ RegsKeptBut [x] s t ∧
        t = { s with regs := t.regs, randomAnswers := rest })

/-! ### Index-register and memory instructions (41_memory_index.md) -/

/-- `SetIndex` puts the 12-bit address in `I` without a range check. The instruction is the spec's
decision D14, from general knowledge (log 14). -/
def Obligations.SetIndexZeroExtends : Prop :=
  ∀ (nnn : Addr12) (s : State), ∃ t, exec (.setIndex nnn) s = .next t ∧
    t = { s with index := t.index } ∧ t.index.toNat = nnn.toNat

/-- `AddToIndex`: the sum wraps modulo 65536; with the quirk off nothing but `I` changes; with it on VF
tells whether the unwrapped sum exceeds 0xFFF. The threshold, the write of 0 and the 16-bit wrap are
the spec's decisions D10 and D11 (log 15). -/
def Obligations.AddToIndexWrapsAndObeysTheQuirk : Prop :=
  ∀ (x : RegIdx) (s : State), ∃ t, exec (.addToIndex x) s = .next t ∧
    t.index.toNat = (s.index.toNat + (s.reg x).toNat) % 65536 ∧
    (s.params.quirkAddIndexFlag = false → t = { s with index := t.index }) ∧
    (s.params.quirkAddIndexFlag = true →
      t = { s with index := t.index, regs := t.regs } ∧ RegsKeptBut [vf] s t ∧
      (t.reg vf).toNat = if s.index.toNat + (s.reg x).toNat > 0xFFF then 1 else 0)

/-- `PointChar` of a digit 0 to 15 completes and points `I` at its glyph, and the five bytes there are the
digit's rows in the font table as long as nothing has been stored over the table, 0x50 to 0x9F. That
`x[X]` gives the digit and `I` takes the address is from general knowledge (log 14), the font bytes are
decision D24 (log 12). -/
def Obligations.PointCharAddressesTheGlyph : Prop :=
  ∀ (x : RegIdx) (s : State), (s.reg x).toNat ≤ 15 →
    ∃ t, exec (.pointChar x) s = .next t ∧ t = { s with index := t.index } ∧
      t.index.toNat = 0x50 + 5 * (s.reg x).toNat ∧
      ((∀ c ∈ s.mem, c.1 < 0x50 ∨ 0xA0 ≤ c.1) → t.mem.readBytes t.index.toNat 5 =
        (fontTable.drop (5 * (s.reg x).toNat)).take 5)

/-- A digit above 15 in `PointChar` and a key number above 15 in the key skips raise their faults, the
key skips before the keypad is sampled: the spec's decisions D16 and D17 (log 18). -/
def Obligations.OperandsAboveFifteenRaise : Prop :=
  ∀ (x : RegIdx) (s : State), 15 < (s.reg x).toNat →
    Raises (.pointChar x) s (.fontDigitOutOfRange (s.reg x)) ∧
    Raises (.skipIfPressed x) s (.keyIndexOutOfRange (s.reg x)) ∧
    Raises (.skipIfNotPressed x) s (.keyIndexOutOfRange (s.reg x))

/-- `ToDecimal` inside the memory writes the hundreds, tens and units digits at `I`, `I + 1`, `I + 2`,
and nothing else: "three decimal digits, most-significant first". The range check is decision D9
(log 18). -/
def Obligations.ToDecimalStoresThreeDigits : Prop :=
  ∀ (x : RegIdx) (s : State), s.elementAddress 2 ≤ 4095 →
    ∃ t h d u, exec (.toDecimal x) s = .next t ∧ t = { s with mem := t.mem } ∧
      t.mem.read (s.elementAddress 0) = h ∧ t.mem.read (s.elementAddress 1) = d ∧
      t.mem.read (s.elementAddress 2) = u ∧
      h.toNat ≤ 2 ∧ d.toNat ≤ 9 ∧ u.toNat ≤ 9 ∧
      100 * h.toNat + 10 * d.toNat + u.toNat = (s.reg x).toNat ∧
      MemKeptOutside (s.elementAddress 0) 3 s t

/-- `StoreRegisters` inside the memory puts `x[k]` at `I + k` for every k up to X and changes nothing
else, `I` included (decision D14, log 15; range check D9, log 18). -/
def Obligations.StoreRegistersWritesAscendingBytes : Prop :=
  ∀ (x : RegIdx) (s : State), s.elementAddress x.toNat ≤ 4095 →
    ∃ t, exec (.storeRegisters x) s = .next t ∧ t = { s with mem := t.mem } ∧
      (∀ k : RegIdx, k.toNat ≤ x.toNat → t.mem.read (s.elementAddress k.toNat) = s.reg k) ∧
      MemKeptOutside (s.elementAddress 0) (x.toNat + 1) s t

/-- `LoadRegisters` inside the memory takes `x[k]` from `I + k` for every k up to X, leaves the registers
above X, and changes nothing else, `I` included (decision D14, log 15; range check D9, log 18). -/
def Obligations.LoadRegistersReadsAscendingBytes : Prop :=
  ∀ (x : RegIdx) (s : State), s.elementAddress x.toNat ≤ 4095 →
    ∃ t, exec (.loadRegisters x) s = .next t ∧ t = { s with regs := t.regs } ∧
      (∀ k : RegIdx, k.toNat ≤ x.toNat → t.reg k = s.mem.read (s.elementAddress k.toNat)) ∧
      (∀ k : RegIdx, x.toNat < k.toNat → t.reg k = s.reg k)

/-- What a block store saves the same block load gives back: from any state with the memory and the `I`
the store left, whatever its registers and the rest hold by then, `LoadRegisters` completes with every
register up to X as it was before the store, and changes nothing else (decisions D9 and D14, log 18,
log 15). -/
def Obligations.StoreThenLoadRestoresTheRegisters : Prop :=
  ∀ (x : RegIdx) (s : State), s.elementAddress x.toNat ≤ 4095 →
    ∃ t, exec (.storeRegisters x) s = .next t ∧
      ∀ u : State, u.mem = t.mem → u.index = t.index →
        ∃ v, exec (.loadRegisters x) u = .next v ∧ v = { u with regs := v.regs } ∧
          (∀ k : RegIdx, k.toNat ≤ x.toNat → v.reg k = s.reg k) ∧
          (∀ k : RegIdx, x.toNat < k.toNat → v.reg k = u.reg k)

/-- A memory instruction whose last address lies beyond 4095 raises `MemoryOutOfRange(I)` before any
effect; addresses never wrap (the spec's decision D9, log 18). -/
def Obligations.RangesBeyondMemoryRaise : Prop :=
  ∀ (x y : RegIdx) (n : Nibble) (s : State),
    (4095 < s.elementAddress 2 → Raises (.toDecimal x) s (.memoryOutOfRange s.index)) ∧
    (4095 < s.elementAddress x.toNat →
      Raises (.storeRegisters x) s (.memoryOutOfRange s.index) ∧
      Raises (.loadRegisters x) s (.memoryOutOfRange s.index)) ∧
    (0 < n.toNat → 4095 < s.elementAddress (n.toNat - 1) →
      Raises (.display x y n) s (.memoryOutOfRange s.index))

/-! ### Control flow (42_control_flow.md) -/

/-- R150: `Jump` sets `pc` to the address, whatever it is, and changes nothing else. -/
def Obligations.JumpSetsThePc : Prop :=
  ∀ (nnn : Addr12) (s : State), ∃ t, exec (.jump nnn) s = .next t ∧
    t = { s with pc := t.pc } ∧ t.pc.toNat = nnn.toNat

/-- `PushSubroutine` appends the address after itself, which `pc` holds, and jumps; on a full finite
stack it raises `StackOverflow` (decision D21, log 7). -/
def Obligations.PushSubroutinePushesTheReturnAddress : Prop :=
  ∀ (nnn : Addr12) (s : State),
    (s.params.stackDepth ≠ some s.stack.length →
      ∃ t, exec (.pushSubroutine nnn) s = .next t ∧
        t = { s with stack := s.stack ++ [s.pc], pc := t.pc } ∧ t.pc.toNat = nnn.toNat) ∧
    (s.params.stackDepth = some s.stack.length →
      Raises (.pushSubroutine nnn) s (.stackOverflow s.stack.length))

/-- R152: `PopSubroutine` removes the last entry and jumps there; on an empty stack it is fatal (the state
the fault leaves is the spec's decision D26, log 4). -/
def Obligations.PopSubroutineReturnsOrUnderflows : Prop :=
  ∀ s : State,
    (∀ init t, s.stack = init ++ [t] →
      exec .popSubroutine s = .next { s with stack := init, pc := t }) ∧
    (s.stack = [] → Raises .popSubroutine s .stackUnderflow)

/-- A return after a call resumes at the instruction after the call and leaves the state the call was
made in, wherever `pc` has gone in between (conflict C9). -/
def Obligations.ReturnResumesAfterTheCall : Prop :=
  ∀ (nnn : Addr12) (s : State), s.params.stackDepth ≠ some s.stack.length →
    ∃ t, exec (.pushSubroutine nnn) s = .next t ∧
      ∀ p : Word, exec .popSubroutine { t with pc := p } = .next s

/-- `JumpWithOffset` goes to the address plus `x[0]`, not reduced modulo 4096 (decision D3, log 16),
whatever nibble 2 of the instruction is. -/
def Obligations.JumpWithOffsetAddsRegisterZero : Prop :=
  ∀ (nnn : Addr12) (s : State), ∃ t, exec (.jumpWithOffset nnn) s = .next t ∧
    t = { s with pc := t.pc } ∧ t.pc.toNat = nnn.toNat + (s.reg 0).toNat

/-- R154: a word no row of R100 takes does nothing: executing it leaves the state as the fetch made it,
and the CPU step that fetches it only moves `pc` to the next instruction (which words those are rests on
decisions D1 and D2, log 14). -/
def Obligations.UnrecognizedWordsDoNothing : Prop :=
  ∀ (s : State) (rest : List Event) (w : Word), isDefinedWord w = false →
    exec (.unrecognized w) s = .next s ∧
    (s.status = .running → s.CpuMoves rest → s.Fetches →
      wordOfBytes (s.mem.read s.pc.toNat) (s.mem.read (s.pc.toNat + 1)) = w →
      step s = .next { s with pc := s.pc + 2, schedule := rest })

/-! ### Skips (43_skip.md) -/

/-- R160 to R164: the four comparing skips. -/
def Obligations.ComparisonsSkipOneInstruction : Prop :=
  ∀ (x y : RegIdx) (nn : Byte) (s : State),
    SkipsWhen (.skipEqualConstant x nn) s (s.reg x = nn) ∧
    SkipsWhen (.skipNotEqualConstant x nn) s (s.reg x ≠ nn) ∧
    SkipsWhen (.skipEqualRegister x y) s (s.reg x = s.reg y) ∧
    SkipsWhen (.skipNotEqualRegister x y) s (s.reg x ≠ s.reg y)

/-- The key skips with a key number 0 to 15 complete in every state, exactly one of the two skipping on
one sample, and when the host answers `keys` the one that tests for a pressed key skips exactly when
bit x[X] of `keys` is set. The key range is decision D16 (log 18), the sample D31 (log 2). -/
def Obligations.KeySkipsTestTheSampledLevel : Prop :=
  ∀ (x : RegIdx) (s : State), (s.reg x).toNat ≤ 15 →
    (∃ t u, exec (.skipIfPressed x) s = .next t ∧ exec (.skipIfNotPressed x) s = .next u ∧
      t = { s with pc := t.pc, keypadAnswers := t.keypadAnswers, draws := t.draws } ∧
      u = { t with pc := u.pc } ∧
      ((t.pc = s.pc + 2 ∧ u.pc = s.pc) ∨ (t.pc = s.pc ∧ u.pc = s.pc + 2))) ∧
    (∀ (keys : BitVec 16) (rest : List (BitVec 16)), s.keypadAnswers = keys :: rest →
      (keys.getLsbD (s.reg x).toNat = true →
        exec (.skipIfPressed x) s = .next { s with pc := s.pc + 2, keypadAnswers := rest } ∧
        exec (.skipIfNotPressed x) s = .next { s with keypadAnswers := rest }) ∧
      (keys.getLsbD (s.reg x).toNat = false →
        exec (.skipIfPressed x) s = .next { s with keypadAnswers := rest } ∧
        exec (.skipIfNotPressed x) s = .next { s with pc := s.pc + 2, keypadAnswers := rest }))

/-! ### Timers and keys (44_timers_keys.md) -/

/-- R170, R172, R173: the verbatim transfers between a timer's count and a register; a write to `ST`
drives the tone. -/
def Obligations.TimerTransfersAreVerbatim : Prop :=
  ∀ (x : RegIdx) (s : State),
    WritesOnly (.copyDelayToRegister x) s x s.dt ∧
    exec (.copyRegisterToDelay x) s = .next { s with dt := s.reg x } ∧
    (∃ t, exec (.copyRegisterToSound x) s = .next t ∧ t = { s with st := s.reg x } ∧
      (t.tone = true ↔ s.reg x ≠ 0))

/-- `GetKey` completes in every state: on the sample it gets it either waits, when no key is pressed, or
stores the number of a pressed key in `x[X]` with `pc` left advanced; it changes nothing else but what
the environment has still to answer (decision D18, log 2). -/
def Obligations.GetKeyWaitsOrStoresAPressedKey : Prop :=
  ∀ (x : RegIdx) (s : State), ∃ t, exec (.getKey x) s = .next t ∧
    t = { s with regs := t.regs, pc := t.pc, keypadAnswers := t.keypadAnswers,
                 keyChoices := t.keyChoices, draws := t.draws } ∧
    ((s.keypadSample.1 = 0 ∧ t.pc = s.pc - 2 ∧ t.regs = s.regs) ∨
      (s.keypadSample.1 ≠ 0 ∧ t.pc = s.pc ∧ (t.reg x).toNat ≤ 15 ∧
        s.keypadSample.1.getLsbD (t.reg x).toNat = true ∧ RegsKeptBut [x] s t))

/-- `GetKey` on a sample the host answers: with no key pressed it goes back to its own address and changes
nothing else; with several pressed, any one of them may be the one stored, each under some choice
(decision D18, log 2, log 3). -/
def Obligations.GetKeyWaitsOnNoKeyAndMayTakeAnyPressedOne : Prop :=
  ∀ (x : RegIdx) (s : State) (keys : BitVec 16) (rest : List (BitVec 16)),
    s.keypadAnswers = keys :: rest →
    (keys = 0 → exec (.getKey x) s = .next { s with pc := s.pc - 2, keypadAnswers := rest }) ∧
    (∀ k : Nibble, keys.getLsbD k.toNat = true →
      ∃ choices t, exec (.getKey x) { s with keyChoices := choices } = .next t ∧
        (t.reg x).toNat = k.toNat ∧ t.pc = s.pc)

/-! ### Display (45_display.md) -/

/-- R180: `ClearScreen` clears every pixel and changes nothing else, VF included. -/
def Obligations.ClearScreenClearsEveryPixel : Prop :=
  ∀ s : State, ∃ t, exec .clearScreen s = .next t ∧ t = { s with fb := t.fb } ∧
    ∀ col row, col < 64 → row < 32 → t.fb.pixel col row = false

/-- `Display` inside the memory XORs each in-grid pixel of the sprite and leaves every other pixel, and
VF is 1 exactly when one of them was on; nothing else changes. Only the start coordinates wrap; the
sprite is clipped at the edges. The range check is decision D9 (log 18); bit 7 leftmost, first byte on
top is D19, clipping D20 (log 19). -/
def Obligations.DisplayXorsTheClippedSprite : Prop :=
  ∀ (x y : RegIdx) (n : Nibble) (s : State),
    (n.toNat = 0 ∨ s.elementAddress (n.toNat - 1) ≤ 4095) →
    ∃ t, exec (.display x y n) s = .next t ∧ t = { s with fb := t.fb, regs := t.regs } ∧
      RegsKeptBut [vf] s t ∧
      (∀ col row, col < 64 → row < 32 →
        t.fb.pixel col row = (s.fb.pixel col row ^^ spriteBit s x y n col row)) ∧
      ((SpriteHits s x y n ∧ t.reg vf = 1) ∨ (¬SpriteHits s x y n ∧ t.reg vf = 0))

/-- The double-draw law: a second `Display` at the same coordinates, height, `I` and memory, on the
framebuffer the first one left, restores the framebuffer from before the first, and its VF tells
whether some in-grid sprite pixel was on after the first draw (derived in 45_display.md R184). -/
def Obligations.DoubleDrawRestoresTheFramebuffer : Prop :=
  ∀ (x y : RegIdx) (n : Nibble) (s t s' u : State),
    exec (.display x y n) s = .next t → t.status = s.status → s.FaultFree →
    s'.fb = t.fb → s'.reg x = s.reg x → s'.reg y = s.reg y → s'.index = s.index → s'.mem = s.mem →
    exec (.display x y n) s' = .next u →
    u.fb = s.fb ∧ (u.reg vf = 1 ↔ SpriteHits s' x y n)

/-! ### Which instruction changes what -/

/-- Only the flag-writing instructions, and those that name index 15 as a destination, change VF
(10_state.md section 1; the flag of `AddToIndex` under the quirk is decision D11, log 15). -/
def Obligations.OnlyTheListedInstructionsWriteVF : Prop :=
  ∀ (i : Instr) (s t : State), exec i s = .next t → t.reg vf ≠ s.reg vf →
    match i with
    | .add _ _ | .subtractForward _ _ | .subtractBackward _ _ | .rightShift _ | .leftShift _
    | .display _ _ _ => True
    | .addToIndex _ => s.params.quirkAddIndexFlag = true
    | .setRegister x _ | .addConstant x _ | .copyRegister x _ | .or x _ | .and x _ | .xOr x _
    | .random x _ | .copyDelayToRegister x | .getKey x | .loadRegisters x => x = vf
    | _ => False

/-- Only `ToDecimal` and `StoreRegisters` change the memory, and no instruction changes `loadEnd`, the
displayed surface or the parameters (20_memory.md sections 9 and 10; 10_state.md sections 2, 8 and 9;
where the parameters stand is log 7); nor the schedule, which is the model's own (log 1). -/
def Obligations.OnlyStoresChangeMemory : Prop :=
  ∀ (i : Instr) (s t : State), exec i s = .next t →
    ((∃ x, i = .toDecimal x) ∨ (∃ x, i = .storeRegisters x) ∨ t.mem = s.mem) ∧
    t.loadEnd = s.loadEnd ∧ t.params = s.params ∧ t.shown = s.shown ∧ t.schedule = s.schedule

/-- Beyond the fetch's advance, `pc` is changed only by the jumps, the call and the return, by a skip,
which adds 2, by a waiting `GetKey` and by a fault, which go back to the instruction's own address
(10_state.md section 2). -/
def Obligations.OnlyTransfersChangeThePc : Prop :=
  ∀ (i : Instr) (s t : State), exec i s = .next t → s.FaultFree → t.pc ≠ s.pc →
    match i with
    | .jump _ | .pushSubroutine _ | .popSubroutine | .jumpWithOffset _ => True
    | .skipEqualConstant _ _ | .skipNotEqualConstant _ _ | .skipEqualRegister _ _
    | .skipNotEqualRegister _ _ => t.pc = s.pc + 2
    | .skipIfPressed _ | .skipIfNotPressed _ =>
      t.pc = s.pc + 2 ∨ (t.pc = s.pc - 2 ∧ ¬t.FaultFree)
    | .getKey _ => t.pc = s.pc - 2
    | .pointChar _ | .toDecimal _ | .storeRegisters _ | .loadRegisters _ | .display _ _ _ =>
      t.pc = s.pc - 2 ∧ ¬t.FaultFree
    | _ => False

/-- `I` is changed only by `SetIndex`, `AddToIndex` and `PointChar`; the stack only by the call and the
return; each timer only by its own copy instruction; the framebuffer only by `ClearScreen` and
`Display` (10_state.md sections 3 to 6). -/
def Obligations.EachUnitHasItsOwnWriters : Prop :=
  ∀ (i : Instr) (s t : State), exec i s = .next t →
    (t.index ≠ s.index →
      (∃ nnn, i = .setIndex nnn) ∨ (∃ x, i = .addToIndex x) ∨ ∃ x, i = .pointChar x) ∧
    (t.stack ≠ s.stack → (∃ nnn, i = .pushSubroutine nnn) ∨ i = .popSubroutine) ∧
    (t.dt ≠ s.dt → ∃ x, i = .copyRegisterToDelay x) ∧
    (t.st ≠ s.st → ∃ x, i = .copyRegisterToSound x) ∧
    (t.fb ≠ s.fb → i = .clearScreen ∨ ∃ x y n, i = .display x y n)

/-! ### Faults (60_exceptions.md) -/

/-- Which instruction raises which fault, and on what condition: the table of 60_exceptions.md section 1
(its codes and the faults other than underflow are the spec's decisions D26, D21, D9, D16, D17;
log 4, log 18). -/
def Obligations.FaultsComeFromTheirInstructions : Prop :=
  ∀ (i : Instr) (s t : State) (c : Cause), exec i s = .next t → s.FaultFree →
    t.status = .faulted c →
    match c with
    | .stackUnderflow => i = .popSubroutine ∧ s.stack = []
    | .stackOverflow depth => (∃ nnn, i = .pushSubroutine nnn) ∧
        s.params.stackDepth = some depth ∧ s.stack.length = depth
    | .pcInvariantFault _ => False
    | .memoryOutOfRange index => index = s.index ∧
        ((∃ x, i = .toDecimal x ∧ 4095 < s.index.toNat + 2) ∨
          (∃ x, i = .storeRegisters x ∧ 4095 < s.index.toNat + x.toNat) ∨
          (∃ x, i = .loadRegisters x ∧ 4095 < s.index.toNat + x.toNat) ∨
          (∃ x y n, i = .display x y n ∧ 0 < n.toNat ∧ 4095 < s.index.toNat + (n.toNat - 1)))
    | .keyIndexOutOfRange value => 15 < value.toNat ∧
        ∃ x, value = s.reg x ∧ (i = .skipIfPressed x ∨ i = .skipIfNotPressed x)
    | .fontDigitOutOfRange value => 15 < value.toNat ∧ ∃ x, value = s.reg x ∧ i = .pointChar x

/-- Faults are precise: a step that ends in `Faulted` has changed nothing but `status`; `pc` is where it
was and so is everything the environment has still to answer (decision D26, log 4). -/
def Obligations.FaultingStepsChangeOnlyTheStatus : Prop :=
  ∀ (s t : State) (c : Cause), step s = .next t → t.status = .faulted c →
    t = { s with status := .faulted c, schedule := s.schedule.tail }

/-- The run is over in `Halted`, `Faulted` and `LoadFailed`: every move of another agent than the host
is stuck, a load is refused, and the only step is a reset (decision D29, log 5). -/
def Obligations.OnlyAResetLeavesAnEndedRun : Prop :=
  ∀ s t : State, s.RunOver → step s = .next t → ∃ rest, s.schedule = .reset :: rest

/-! ### The step and the other agents -/

/-- The step runs the decoded instruction: where the CPU moves and the fetch check passes, the two bytes
at `pc` decode to an instruction and the step is its execution on the state with `pc` advanced by 2
and the move taken off the schedule. -/
def Obligations.StepRunsTheDecodedInstruction : Prop :=
  ∀ (s : State) (rest : List Event) (i : Instr), s.status = .running → s.CpuMoves rest → s.Fetches →
    decodeBytes [s.mem.read s.pc.toNat, s.mem.read (s.pc.toNat + 1)] = .ok (i, []) →
    step s = exec i { s with pc := s.pc + 2, schedule := rest }

/-- The fetch check: `pc` odd or below 0x200 is `PcInvariantFault`, tested first (decision D4); otherwise
a `pc` whose advance would go beyond `loadEnd` halts without a fetch (decision D5; log 16). -/
def Obligations.FetchCheckComesBeforeTheFetch : Prop :=
  ∀ (s : State) (rest : List Event), s.status = .running → s.CpuMoves rest →
    ((s.pc.toNat % 2 = 1 ∨ s.pc.toNat < 0x200) →
      step s = .next { s with status := .faulted (.pcInvariantFault s.pc), schedule := rest }) ∧
    (s.pc.toNat % 2 = 0 → 0x200 ≤ s.pc.toNat → s.loadEnd.toNat < s.pc.toNat + 2 →
      step s = .next { s with status := .halted, schedule := rest })

/-- `Halted` is reached by exactly one route: a CPU step that finds `pc` even, at least 0x200 and
`pc + 2 > loadEnd`, and that changes nothing else (decision D5, log 16). -/
def Obligations.HaltedIsReachedOnlyAtTheLoadEnd : Prop :=
  ∀ s t : State, step s = .next t → t.status = .halted →
    ∃ rest, s.CpuMoves rest ∧ s.status = .running ∧ s.pc.toNat % 2 = 0 ∧ 0x200 ≤ s.pc.toNat ∧
      s.loadEnd.toNat < s.pc.toNat + 2 ∧ t = { s with status := .halted, schedule := rest }

/-- The word a block store leaves at `I` is what the next fetch at `I` executes, with nothing to wait out
(derived in 20_memory.md R73). That the program's bytes can be written is decision D25 (log 21), what
the store writes and its range check are decisions D14 and D9 (log 15, log 18). -/
def Obligations.StoredCodeIsFetchedNext : Prop :=
  ∀ (x : RegIdx) (s : State) (rest : List Event), s.elementAddress x.toNat ≤ 4095 → 1 ≤ x.toNat →
    ∃ t, exec (.storeRegisters x) s = .next t ∧
      (t.status = .running → t.CpuMoves rest → t.Fetches → t.pc = s.index →
        step t = exec (decodeWord (wordOfBytes (s.reg 0) (s.reg 1)))
          { t with pc := t.pc + 2, schedule := rest })

/-- `withFetchWord` does what the model's loader convention says (log 17): from any state the very next
step executes the word, on a state that differs from the one it was put in only in what the fetch
needs. -/
def Obligations.WithFetchWordRunsTheWord : Prop :=
  ∀ (s : State) (nbits w : Nat), ∃ t,
    step (s.withFetchWord nbits w) = exec (decodeWord (tableWord nbits w)) t ∧
    t = { s with pc := s.fetchAddress + 2, mem := t.mem, loadEnd := t.loadEnd, status := .running } ∧
    MemKeptOutside s.fetchAddress.toNat 2 s t ∧ s.loadEnd.toNat ≤ t.loadEnd.toNat

/-- A tick takes 1 from a timer above 0, leaves one at 0, and touches nothing else, while `Running`; the
two timers are independent (decision D22, log 1). -/
def Obligations.TicksCountOneTimerDown : Prop :=
  ∀ (s : State) (rest : List Event), s.status = .running →
    (s.schedule = .tickDelay :: rest → ∃ t, step s = .next t ∧
      t = { s with dt := t.dt, schedule := rest } ∧ t.dt.toNat = s.dt.toNat - 1) ∧
    (s.schedule = .tickSound :: rest → ∃ t, step s = .next t ∧
      t = { s with st := t.st, schedule := rest } ∧ t.st.toNat = s.st.toNat - 1)

/-- Any number of delay ticks in a row: the timer goes down by that number, reaches 0 and stays there
(the source's testable property, 60_exceptions.md section 3; the schedule is the model's, log 1). -/
def Obligations.TimerReachesZeroAndStays : Prop :=
  ∀ (n : Nat) (s : State) (rest : List Event), s.status = .running →
    s.schedule = List.replicate n .tickDelay ++ rest →
    ∃ t, Host.Core.run core n s = .next t ∧ t = { s with dt := t.dt, schedule := rest } ∧
      t.dt.toNat = s.dt.toNat - n

/-- Under fairness the delay timer of a running core runs out: unless the program writes it again, some
point of the run has `DT = 0`, or the run has ended (70_reset_and_hazards.md R233 (b), the premise of a
busy wait on `DT`; fairness is the spec's decision D22, the endless moves are the model's, log 1). -/
def Obligations.DelayTimerRunsOutUnderFairness : Prop :=
  ∀ (moves : Nat → Event) (s : State), s.status = .running → FairMoves moves s →
    NeverSetsDelay moves s →
    ∃ n t, afterMoves moves s n = .next t ∧ (t.dt = 0 ∨ t.status ≠ .running)

/-- R204: a refresh copies the framebuffer to the displayed surface and touches nothing else (the surface
`shown` is the spec's decision D23, the schedule the model's, log 1). -/
def Obligations.RefreshShowsTheFramebuffer : Prop :=
  ∀ (s : State) (rest : List Event), s.status = .running → s.schedule = .refresh :: rest →
    step s = .next { s with shown := s.fb, schedule := rest }

/-- One loop iteration with every domain due runs, in order, one CPU step, the tick of each timer and one
refresh (decision D34; the schedule is the model's, log 1). -/
def Obligations.LoopIterationRunsInOrder : Prop :=
  ∀ (s t : State) (rest : List Event), s.status = .running →
    s.schedule = loopIteration true true true ++ rest →
    step s = .next t → t.status = .running →
    Host.Core.run core 4 s = .next
      { t with dt := countDown t.dt, st := countDown t.st, shown := t.fb, schedule := rest }

/-- Who may change what: ticks change only their timer, a refresh only the displayed surface, a load
only memory, `loadEnd`, `pc` and `status`, a CPU step never `loadEnd`, the parameters or the displayed
surface (10_state.md section 12); and the host's reset neither the parameters nor the displayed
surface, which is the model's choice (log 7, log 8). -/
def Obligations.AgentsChangeOnlyTheirOwnState : Prop :=
  ∀ (s t : State) (e : Event) (rest : List Event), s.schedule = e :: rest → step s = .next t →
    match e with
    | .cpu => t.loadEnd = s.loadEnd ∧ t.params = s.params ∧ t.shown = s.shown ∧ t.schedule = rest
    | .tickDelay => t = { s with dt := t.dt, schedule := rest }
    | .tickSound => t = { s with st := t.st, schedule := rest }
    | .refresh => t = { s with shown := t.shown, schedule := rest }
    | .load _ => t = { s with mem := t.mem, loadEnd := t.loadEnd, pc := t.pc, status := t.status,
                              schedule := rest }
    | .reset => t.params = s.params ∧ t.shown = s.shown ∧ t.schedule = rest

/-! ### Load and reset (70_reset_and_hazards.md) -/

/-- A program that fits is copied verbatim to 0x200, `loadEnd` is one past it, `pc` is 0x200 and the core
runs; nothing else changes (derived passages and decision D30; log 6, log 17). -/
def Obligations.LoadCopiesTheProgram : Prop :=
  ∀ (s : State) (program : List Byte) (rest : List Event), s.status = .unloaded →
    s.schedule = .load program :: rest → 0x200 + program.length ≤ 4096 →
    ∃ t, step s = .next t ∧
      t = { s with mem := t.mem, loadEnd := t.loadEnd, pc := 0x200, status := .running,
                   schedule := rest } ∧
      t.loadEnd.toNat = 0x200 + program.length ∧
      (∀ k b, program[k]? = some b → t.mem.read (0x200 + k) = b) ∧
      MemKeptOutside 0x200 program.length s t

/-- A program that does not fit fails the load, writing nothing but `status`; and a load outside
`Unloaded` is refused, whatever the program (decision D30; log 6). -/
def Obligations.LoadsThatCannotBeAreRefused : Prop :=
  ∀ (s : State) (program : List Byte) (rest : List Event), s.schedule = .load program :: rest →
    (s.status = .unloaded → 4096 < 0x200 + program.length →
      step s = .next { s with status := .loadFailed, schedule := rest }) ∧
    (s.status ≠ .unloaded → step s = .refused .loadNotEnabled)

/-- No agent but the host moves before a load: no instruction executes (10_state.md R32) and no timer
ticks (60_exceptions.md R202), for a run is reset, load, then events (70_reset_and_hazards.md R224).
That a refresh is stuck there too is the model's choice (log 5). -/
def Obligations.NothingRunsBeforeALoad : Prop :=
  ∀ s : State, s.status = .unloaded → (∀ program rest, s.schedule ≠ .load program :: rest) →
    (∀ rest, s.schedule ≠ .reset :: rest) → step s = .fault .awaitingLoad

/-- What reset leaves, after reset as such and after the host's reset in any status: the reset table of
10_state.md section 11 with the font bytes of 20_memory.md section 8, as the spec decides them
(decisions D6, D7, D8, D24; log 12, log 13). That the parameters have the defaults of 00_scope.md R7 in
`State.reset`, and that the host's reset keeps them and the displayed surface, which R43 leaves
unspecified, is the model's choice (log 7, log 8). -/
def Obligations.ResetLeavesTheResetTable : Prop :=
  State.reset.AtResetTable ∧ State.reset.params = { quirkAddIndexFlag := false, stackDepth := none } ∧
  ∀ (s : State) (rest : List Event), s.schedule = .reset :: rest →
    ∃ t, step s = .next t ∧ t.AtResetTable ∧ t.params = s.params ∧ t.shown = s.shown ∧ t.schedule = rest

/-! ### The invariant -/

/-- The invariant holds at reset. -/
def Obligations.ResetStateMeetsTheInvariant : Prop := State.reset.Inv

/-- Every step keeps the invariant: the memory's canonical form, `loadEnd` in range, `pc` at most 0x10FE,
even return addresses, the stack's bound, a core untouched before a load, and what `Halted` and
`Faulted` say of the state. -/
def Obligations.EveryStepKeepsTheInvariant : Prop :=
  ∀ s t : State, s.Inv → step s = .next t → t.Inv

/-- A return never leads to `PcInvariantFault`: in a state that meets `State.Inv`, the address popped is
even and at least 0x202 (derived in 42_control_flow.md R152). It may be at or beyond `loadEnd`, which
ends the run normally. -/
def Obligations.ReturnsNeverRaisePcInvariantFault : Prop :=
  ∀ s t : State, s.Inv → exec .popSubroutine s = .next t → t.FaultFree →
    t.pc.toNat % 2 = 0 ∧ 0x202 ≤ t.pc.toNat

/-! ### Encoding (30_encoding.md) -/

/-- Decoding the word of a well-formed instruction gives it back, for every operand value (30_encoding.md
section 6: the encoder's Y = 0 for the shifts is decision D28, log 9). -/
def Obligations.DecodeOfEncodeIsTheInstruction : Prop :=
  ∀ i : Instr, i.wellFormed = true → decodeWord (encode i) = i

/-- Every word decodes to a well-formed instruction whose word it is, but for the Y nibble of the two
shifts, which decoding ignores and the encoder puts to 0 (R104, decision D28). That an unrecognized word
encodes to itself is the model's choice (log 9), the rows marked `gk` are decision D1, the words off the
table D2 (log 14). -/
def Obligations.EncodeOfDecodeIsTheWord : Prop :=
  ∀ w : Word, (decodeWord w).wellFormed = true ∧
    match decodeWord w with
    | .rightShift _ | .leftShift _ => encode (decodeWord w) = w &&& 0xFF0F
    | _ => encode (decodeWord w) = w

/-- The decoder, which goes by families and nibbles, agrees with the mask and match rows of 30_encoding.md
section 3 on every word, and no word is taken by two rows (the rows marked `gk` are decision D1,
log 14). -/
def Obligations.DecoderAgreesWithTheOpcodeMap : Prop :=
  ∀ w : Word, (decodeWord w).rowNumber = rowNumberOfWord w ∧
    ∀ r ∈ opcodeMap, ∀ q ∈ opcodeMap, r.takes w = true → q.takes w = true → r = q

/-- R94: family 0 requires an exact match; any other word with top nibble 0 is unrecognized. -/
def Obligations.FamilyZeroNeedsAnExactMatch : Prop :=
  ∀ w : Word, w.toNat < 0x1000 →
    (w = 0x00E0 → decodeWord w = .clearScreen) ∧ (w = 0x00EE → decodeWord w = .popSubroutine) ∧
    (w ≠ 0x00E0 → w ≠ 0x00EE → decodeWord w = .unrecognized w)

/-- Words written out from the encoding tables decode to their instructions: the source's five examples
and one word at least of every family (30_encoding.md section 2; the rows marked `gk` are decision D1,
log 14). -/
def Obligations.SampleWordsDecode : Prop :=
  decodeWord 0x00E0 = .clearScreen ∧ decodeWord 0x00EE = .popSubroutine ∧
  decodeWord 0x1ABC = .jump 0xABC ∧ decodeWord 0x6A07 = .setRegister 0xA 0x07 ∧
  decodeWord 0x8014 = .add 0 1 ∧ decodeWord 0x2345 = .pushSubroutine 0x345 ∧
  decodeWord 0x3A42 = .skipEqualConstant 0xA 0x42 ∧
  decodeWord 0x4B10 = .skipNotEqualConstant 0xB 0x10 ∧ decodeWord 0x5121 = .unrecognized 0x5121 ∧
  decodeWord 0x7105 = .addConstant 1 0x05 ∧ decodeWord 0x9120 = .skipNotEqualRegister 1 2 ∧
  decodeWord 0xA300 = .setIndex 0x300 ∧ decodeWord 0xB300 = .jumpWithOffset 0x300 ∧
  decodeWord 0xC30F = .random 3 0x0F ∧ decodeWord 0xD125 = .display 1 2 5 ∧
  decodeWord 0xE3A1 = .skipIfNotPressed 3 ∧ decodeWord 0xF255 = .storeRegisters 2
end

