-- ==== Sys2Proof/Laws/Memory.lean ====
section
/-! SUPPORT. Memory: a read after a write, and that every memory operation keeps the canonical form. -/

namespace Sys2Proof.Machine.Memory

open Sys2Proof.Config

/-! ### Reads after writes -/

theorem read_erase_same (m : Memory) (a : Nat) : (m.erase a).read a = background a := by
  induction m with
  | nil => rfl
  | cons c rest ih =>
    obtain ⟨k, v⟩ := c
    by_cases h : k = a <;> simp [erase, read, h, ih]

theorem read_erase_of_ne (m : Memory) {a b : Nat} (h : b ≠ a) : (m.erase a).read b = m.read b := by
  induction m with
  | nil => rfl
  | cons c rest ih =>
    obtain ⟨k, v⟩ := c
    by_cases hk : k = a
    · subst hk; simp [erase, read, ih, Ne.symm h]
    · simp [erase, read, hk, ih]

/-- An address no cell lists reads as the reset contents. -/
theorem read_unlisted (m : Memory) {a : Nat} (h : ∀ c ∈ m, c.1 ≠ a) : m.read a = background a := by
  induction m with
  | nil => rfl
  | cons c rest ih =>
    obtain ⟨k, v⟩ := c
    have hk : k ≠ a := h (k, v) (by simp)
    simp only [read, hk, if_false]
    exact ih fun c hc => h c (by simp [hc])

/-- Erasing an address leaves no cell at it. -/
theorem not_mem_erase (m : Memory) (a : Nat) : ∀ c ∈ m.erase a, c.1 ≠ a := by
  induction m with
  | nil => simp [erase]
  | cons c rest ih =>
    obtain ⟨k, v⟩ := c
    by_cases h : k = a
    · simpa [erase, h] using ih
    · simp only [erase, h, if_false, List.mem_cons, forall_eq_or_imp]
      exact ⟨h, ih⟩

theorem read_insert_same (m : Memory) (a : Nat) (b : Byte) (h : ∀ c ∈ m, c.1 ≠ a) :
    (m.insert a b).read a = b := by
  induction m with
  | nil => simp [insert, read]
  | cons c rest ih =>
    obtain ⟨k, v⟩ := c
    have hk : k ≠ a := h (k, v) (by simp)
    by_cases hlt : a < k
    · simp [insert, read, hlt]
    · simp only [insert, hlt, if_false, read, hk]
      exact ih fun c hc => h c (by simp [hc])

theorem read_insert_of_ne (m : Memory) {a c : Nat} (b : Byte) (h : c ≠ a) :
    (m.insert a b).read c = m.read c := by
  induction m with
  | nil => simp [insert, read, Ne.symm h]
  | cons d rest ih =>
    obtain ⟨k, v⟩ := d
    by_cases hlt : a < k
    · simp [insert, read, hlt, Ne.symm h]
    · simp [insert, read, hlt, ih]

/-- A read after a write of the same address gives the byte written. -/
@[simp] theorem read_write_same (m : Memory) (a : Nat) (b : Byte) : (m.write a b).read a = b := by
  unfold write
  split
  · next h => rw [read_erase_same, h]
  · exact read_insert_same _ _ _ (not_mem_erase m a)

/-- A write leaves every other address alone. -/
@[simp] theorem read_write_of_ne (m : Memory) {a c : Nat} (b : Byte) (h : c ≠ a) :
    (m.write a b).read c = m.read c := by
  unfold write
  split
  · exact read_erase_of_ne m h
  · rw [read_insert_of_ne _ _ h, read_erase_of_ne m h]

/-! ### The canonical form -/

theorem wfAbove_cons (lo k : Nat) (v : Byte) (rest : Memory) :
    wfAbove lo ((k, v) :: rest) = true ↔
      lo ≤ k ∧ k < memorySize ∧ v ≠ background k ∧ wfAbove (k + 1) rest = true := by
  simp [wfAbove, and_assoc]

theorem wfAbove_mono {lo hi : Nat} (m : Memory) (h : lo ≤ hi) (hm : wfAbove hi m = true) :
    wfAbove lo m = true := by
  cases m with
  | nil => rfl
  | cons c rest =>
    obtain ⟨k, v⟩ := c
    rw [wfAbove_cons] at hm ⊢
    exact ⟨by omega, hm.2⟩

theorem wfAbove_erase (m : Memory) (a : Nat) : ∀ lo, wfAbove lo m = true → wfAbove lo (m.erase a) = true := by
  induction m with
  | nil => intro lo h; exact h
  | cons c rest ih =>
    obtain ⟨k, v⟩ := c
    intro lo h
    rw [wfAbove_cons] at h
    by_cases hk : k = a
    · simp only [erase, hk, if_true]
      exact wfAbove_mono _ (by omega) (ih _ h.2.2.2)
    · simp only [erase, hk, if_false]
      rw [wfAbove_cons]
      exact ⟨h.1, h.2.1, h.2.2.1, ih _ h.2.2.2⟩

theorem wfAbove_insert (m : Memory) (a : Nat) (b : Byte) (ha : a < memorySize)
    (hb : b ≠ background a) : ∀ lo, lo ≤ a → (∀ c ∈ m, c.1 ≠ a) → wfAbove lo m = true →
      wfAbove lo (m.insert a b) = true := by
  induction m with
  | nil =>
    intro lo hlo _ _
    simp only [insert]
    rw [wfAbove_cons]
    exact ⟨hlo, ha, hb, rfl⟩
  | cons c rest ih =>
    obtain ⟨k, v⟩ := c
    intro lo hlo hne h
    have hk : k ≠ a := hne (k, v) (by simp)
    rw [wfAbove_cons] at h
    by_cases hlt : a < k
    · simp only [insert, hlt, if_true]
      rw [wfAbove_cons, wfAbove_cons]
      exact ⟨hlo, ha, hb, by omega, h.2⟩
    · simp only [insert, hlt, if_false]
      rw [wfAbove_cons]
      exact ⟨h.1, h.2.1, h.2.2.1, ih _ (by omega) (fun c hc => hne c (by simp [hc])) h.2.2.2⟩

/-- A write inside the memory keeps the canonical form. -/
theorem wf_write {m : Memory} {a : Nat} (b : Byte) (ha : a < memorySize) (h : m.wf = true) :
    (m.write a b).wf = true := by
  unfold wf at h ⊢
  unfold write
  split
  · exact wfAbove_erase m a 0 h
  · next hb => exact wfAbove_insert _ a b ha hb 0 (Nat.zero_le a) (not_mem_erase m a) (wfAbove_erase m a 0 h)

/-- The reset memory is in canonical form. -/
theorem wf_nil : Memory.wf [] = true := rfl

/-! ### Several bytes -/

@[simp] theorem writeBytes_nil (m : Memory) (base : Nat) : m.writeBytes base [] = m := rfl

@[simp] theorem writeBytes_cons (m : Memory) (base : Nat) (b : Byte) (rest : List Byte) :
    m.writeBytes base (b :: rest) = (m.write base b).writeBytes (base + 1) rest := rfl

/-- Bytes stored from `base` leave every address outside them alone. -/
theorem read_writeBytes_outside (bytes : List Byte) : ∀ (m : Memory) (base a : Nat),
    a < base ∨ base + bytes.length ≤ a → (m.writeBytes base bytes).read a = m.read a := by
  induction bytes with
  | nil => intros; rfl
  | cons b rest ih =>
    intro m base a h
    simp only [List.length_cons] at h
    rw [writeBytes_cons, ih _ _ _ (by omega), read_write_of_ne _ _ (by omega)]

/-- Byte `k` stored from `base` reads back at `base + k`. -/
theorem read_writeBytes (bytes : List Byte) : ∀ (m : Memory) (base k : Nat) (hk : k < bytes.length),
    (m.writeBytes base bytes).read (base + k) = bytes[k] := by
  induction bytes with
  | nil => intro m base k hk; simp at hk
  | cons b rest ih =>
    intro m base k hk
    rw [writeBytes_cons]
    cases k with
    | zero =>
      rw [read_writeBytes_outside rest _ _ _ (by omega)]
      simp
    | succ j =>
      have := ih (m.write base b) (base + 1) j (by simpa using hk)
      simpa [Nat.add_assoc, Nat.add_comm 1 j] using this

/-- Bytes stored inside the memory keep the canonical form. -/
theorem wf_writeBytes (bytes : List Byte) : ∀ {m : Memory} {base : Nat},
    base + bytes.length ≤ memorySize → m.wf = true → (m.writeBytes base bytes).wf = true := by
  induction bytes with
  | nil => intro m base _ h; exact h
  | cons b rest ih =>
    intro m base hb h
    simp only [List.length_cons] at hb
    exact ih (by omega) (wf_write b (by omega) h)

@[simp] theorem length_readBytes (count : Nat) : ∀ (m : Memory) (base : Nat),
    (m.readBytes base count).length = count := by
  induction count with
  | zero => intros; rfl
  | succ n ih => intros; simp [readBytes, ih]

/-- Two memories that agree on a block's bytes read the same block. -/
theorem readBytes_congr {m m' : Memory} (count : Nat) : ∀ base,
    (∀ a, base ≤ a → a < base + count → m.read a = m'.read a) →
      m.readBytes base count = m'.readBytes base count := by
  induction count with
  | zero => intros; rfl
  | succ n ih =>
    intro base h
    simp only [readBytes]
    rw [h base (by omega) (by omega), ih (base + 1) fun a h1 h2 => h a (by omega) (by omega)]

/-- Byte `k` of a block read is the byte at `base + k`. -/
theorem getElem_readBytes (count : Nat) : ∀ (m : Memory) (base k : Nat)
    (hk : k < (m.readBytes base count).length), (m.readBytes base count)[k] = m.read (base + k) := by
  induction count with
  | zero => intro m base k hk; simp [readBytes] at hk
  | succ n ih =>
    intro m base k hk
    cases k with
    | zero => rfl
    | succ j =>
      simp only [readBytes, List.getElem_cons_succ]
      rw [ih]
      congr 1
      omega

end Sys2Proof.Machine.Memory
end

