-- ==== Sys2Proof/Laws/State.lean ====
section
/-! SUPPORT. One lemma per field of the state per named update, true by rfl. -/

namespace Sys2Proof.Machine.State

section
variable (s : State) (r : RegIdx) (v : Byte)
@[simp] theorem setReg_regs : (s.setReg r v).regs = s.regs.set r.toNat v r.isLt := rfl
@[simp] theorem setReg_pc : (s.setReg r v).pc = s.pc := rfl
@[simp] theorem setReg_loadEnd : (s.setReg r v).loadEnd = s.loadEnd := rfl
@[simp] theorem setReg_index : (s.setReg r v).index = s.index := rfl
@[simp] theorem setReg_stack : (s.setReg r v).stack = s.stack := rfl
@[simp] theorem setReg_dt : (s.setReg r v).dt = s.dt := rfl
@[simp] theorem setReg_st : (s.setReg r v).st = s.st := rfl
@[simp] theorem setReg_fb : (s.setReg r v).fb = s.fb := rfl
@[simp] theorem setReg_mem : (s.setReg r v).mem = s.mem := rfl
@[simp] theorem setReg_status : (s.setReg r v).status = s.status := rfl
@[simp] theorem setReg_shown : (s.setReg r v).shown = s.shown := rfl
@[simp] theorem setReg_params : (s.setReg r v).params = s.params := rfl
@[simp] theorem setReg_schedule : (s.setReg r v).schedule = s.schedule := rfl
@[simp] theorem setReg_keypadAnswers : (s.setReg r v).keypadAnswers = s.keypadAnswers := rfl
@[simp] theorem setReg_randomAnswers : (s.setReg r v).randomAnswers = s.randomAnswers := rfl
@[simp] theorem setReg_keyChoices : (s.setReg r v).keyChoices = s.keyChoices := rfl
@[simp] theorem setReg_draws : (s.setReg r v).draws = s.draws := rfl
end

section
variable (s : State) (x : RegIdx) (f : Nat → Byte)
@[simp] theorem setRegsUpTo_regs : (s.setRegsUpTo x f).regs = blockLoaded s.regs x f := by unfold setRegsUpTo; rfl
@[simp] theorem setRegsUpTo_pc : (s.setRegsUpTo x f).pc = s.pc := by unfold setRegsUpTo; rfl
@[simp] theorem setRegsUpTo_loadEnd : (s.setRegsUpTo x f).loadEnd = s.loadEnd := by unfold setRegsUpTo; rfl
@[simp] theorem setRegsUpTo_index : (s.setRegsUpTo x f).index = s.index := by unfold setRegsUpTo; rfl
@[simp] theorem setRegsUpTo_stack : (s.setRegsUpTo x f).stack = s.stack := by unfold setRegsUpTo; rfl
@[simp] theorem setRegsUpTo_dt : (s.setRegsUpTo x f).dt = s.dt := by unfold setRegsUpTo; rfl
@[simp] theorem setRegsUpTo_st : (s.setRegsUpTo x f).st = s.st := by unfold setRegsUpTo; rfl
@[simp] theorem setRegsUpTo_fb : (s.setRegsUpTo x f).fb = s.fb := by unfold setRegsUpTo; rfl
@[simp] theorem setRegsUpTo_mem : (s.setRegsUpTo x f).mem = s.mem := by unfold setRegsUpTo; rfl
@[simp] theorem setRegsUpTo_status : (s.setRegsUpTo x f).status = s.status := by unfold setRegsUpTo; rfl
@[simp] theorem setRegsUpTo_shown : (s.setRegsUpTo x f).shown = s.shown := by unfold setRegsUpTo; rfl
@[simp] theorem setRegsUpTo_params : (s.setRegsUpTo x f).params = s.params := by unfold setRegsUpTo; rfl
@[simp] theorem setRegsUpTo_schedule : (s.setRegsUpTo x f).schedule = s.schedule := by unfold setRegsUpTo; rfl
@[simp] theorem setRegsUpTo_keypadAnswers : (s.setRegsUpTo x f).keypadAnswers = s.keypadAnswers := by unfold setRegsUpTo; rfl
@[simp] theorem setRegsUpTo_randomAnswers : (s.setRegsUpTo x f).randomAnswers = s.randomAnswers := by unfold setRegsUpTo; rfl
@[simp] theorem setRegsUpTo_keyChoices : (s.setRegsUpTo x f).keyChoices = s.keyChoices := by unfold setRegsUpTo; rfl
@[simp] theorem setRegsUpTo_draws : (s.setRegsUpTo x f).draws = s.draws := by unfold setRegsUpTo; rfl
end

section
variable (s : State) (a : Word)
@[simp] theorem jumpTo_regs : (s.jumpTo a).regs = s.regs := rfl
@[simp] theorem jumpTo_pc : (s.jumpTo a).pc = a := rfl
@[simp] theorem jumpTo_loadEnd : (s.jumpTo a).loadEnd = s.loadEnd := rfl
@[simp] theorem jumpTo_index : (s.jumpTo a).index = s.index := rfl
@[simp] theorem jumpTo_stack : (s.jumpTo a).stack = s.stack := rfl
@[simp] theorem jumpTo_dt : (s.jumpTo a).dt = s.dt := rfl
@[simp] theorem jumpTo_st : (s.jumpTo a).st = s.st := rfl
@[simp] theorem jumpTo_fb : (s.jumpTo a).fb = s.fb := rfl
@[simp] theorem jumpTo_mem : (s.jumpTo a).mem = s.mem := rfl
@[simp] theorem jumpTo_status : (s.jumpTo a).status = s.status := rfl
@[simp] theorem jumpTo_shown : (s.jumpTo a).shown = s.shown := rfl
@[simp] theorem jumpTo_params : (s.jumpTo a).params = s.params := rfl
@[simp] theorem jumpTo_schedule : (s.jumpTo a).schedule = s.schedule := rfl
@[simp] theorem jumpTo_keypadAnswers : (s.jumpTo a).keypadAnswers = s.keypadAnswers := rfl
@[simp] theorem jumpTo_randomAnswers : (s.jumpTo a).randomAnswers = s.randomAnswers := rfl
@[simp] theorem jumpTo_keyChoices : (s.jumpTo a).keyChoices = s.keyChoices := rfl
@[simp] theorem jumpTo_draws : (s.jumpTo a).draws = s.draws := rfl
end

section
variable (s : State) (a : Word)
@[simp] theorem push_regs : (s.push a).regs = s.regs := rfl
@[simp] theorem push_pc : (s.push a).pc = s.pc := rfl
@[simp] theorem push_loadEnd : (s.push a).loadEnd = s.loadEnd := rfl
@[simp] theorem push_index : (s.push a).index = s.index := rfl
@[simp] theorem push_stack : (s.push a).stack = s.stack ++ [a] := rfl
@[simp] theorem push_dt : (s.push a).dt = s.dt := rfl
@[simp] theorem push_st : (s.push a).st = s.st := rfl
@[simp] theorem push_fb : (s.push a).fb = s.fb := rfl
@[simp] theorem push_mem : (s.push a).mem = s.mem := rfl
@[simp] theorem push_status : (s.push a).status = s.status := rfl
@[simp] theorem push_shown : (s.push a).shown = s.shown := rfl
@[simp] theorem push_params : (s.push a).params = s.params := rfl
@[simp] theorem push_schedule : (s.push a).schedule = s.schedule := rfl
@[simp] theorem push_keypadAnswers : (s.push a).keypadAnswers = s.keypadAnswers := rfl
@[simp] theorem push_randomAnswers : (s.push a).randomAnswers = s.randomAnswers := rfl
@[simp] theorem push_keyChoices : (s.push a).keyChoices = s.keyChoices := rfl
@[simp] theorem push_draws : (s.push a).draws = s.draws := rfl
end

section
variable (s : State)
@[simp] theorem dropTop_regs : (s.dropTop).regs = s.regs := rfl
@[simp] theorem dropTop_pc : (s.dropTop).pc = s.pc := rfl
@[simp] theorem dropTop_loadEnd : (s.dropTop).loadEnd = s.loadEnd := rfl
@[simp] theorem dropTop_index : (s.dropTop).index = s.index := rfl
@[simp] theorem dropTop_stack : (s.dropTop).stack = s.stack.dropLast := rfl
@[simp] theorem dropTop_dt : (s.dropTop).dt = s.dt := rfl
@[simp] theorem dropTop_st : (s.dropTop).st = s.st := rfl
@[simp] theorem dropTop_fb : (s.dropTop).fb = s.fb := rfl
@[simp] theorem dropTop_mem : (s.dropTop).mem = s.mem := rfl
@[simp] theorem dropTop_status : (s.dropTop).status = s.status := rfl
@[simp] theorem dropTop_shown : (s.dropTop).shown = s.shown := rfl
@[simp] theorem dropTop_params : (s.dropTop).params = s.params := rfl
@[simp] theorem dropTop_schedule : (s.dropTop).schedule = s.schedule := rfl
@[simp] theorem dropTop_keypadAnswers : (s.dropTop).keypadAnswers = s.keypadAnswers := rfl
@[simp] theorem dropTop_randomAnswers : (s.dropTop).randomAnswers = s.randomAnswers := rfl
@[simp] theorem dropTop_keyChoices : (s.dropTop).keyChoices = s.keyChoices := rfl
@[simp] theorem dropTop_draws : (s.dropTop).draws = s.draws := rfl
end

section
variable (s : State) (c : Cause)
@[simp] theorem stopWith_regs : (s.stopWith c).regs = s.regs := rfl
@[simp] theorem stopWith_pc : (s.stopWith c).pc = s.pc := rfl
@[simp] theorem stopWith_loadEnd : (s.stopWith c).loadEnd = s.loadEnd := rfl
@[simp] theorem stopWith_index : (s.stopWith c).index = s.index := rfl
@[simp] theorem stopWith_stack : (s.stopWith c).stack = s.stack := rfl
@[simp] theorem stopWith_dt : (s.stopWith c).dt = s.dt := rfl
@[simp] theorem stopWith_st : (s.stopWith c).st = s.st := rfl
@[simp] theorem stopWith_fb : (s.stopWith c).fb = s.fb := rfl
@[simp] theorem stopWith_mem : (s.stopWith c).mem = s.mem := rfl
@[simp] theorem stopWith_status : (s.stopWith c).status = .faulted c := rfl
@[simp] theorem stopWith_shown : (s.stopWith c).shown = s.shown := rfl
@[simp] theorem stopWith_params : (s.stopWith c).params = s.params := rfl
@[simp] theorem stopWith_schedule : (s.stopWith c).schedule = s.schedule := rfl
@[simp] theorem stopWith_keypadAnswers : (s.stopWith c).keypadAnswers = s.keypadAnswers := rfl
@[simp] theorem stopWith_randomAnswers : (s.stopWith c).randomAnswers = s.randomAnswers := rfl
@[simp] theorem stopWith_keyChoices : (s.stopWith c).keyChoices = s.keyChoices := rfl
@[simp] theorem stopWith_draws : (s.stopWith c).draws = s.draws := rfl
end

section
variable (s : State)
@[simp] theorem undoAdvance_regs : (s.undoAdvance).regs = s.regs := rfl
@[simp] theorem undoAdvance_pc : (s.undoAdvance).pc = s.pc - 2 := rfl
@[simp] theorem undoAdvance_loadEnd : (s.undoAdvance).loadEnd = s.loadEnd := rfl
@[simp] theorem undoAdvance_index : (s.undoAdvance).index = s.index := rfl
@[simp] theorem undoAdvance_stack : (s.undoAdvance).stack = s.stack := rfl
@[simp] theorem undoAdvance_dt : (s.undoAdvance).dt = s.dt := rfl
@[simp] theorem undoAdvance_st : (s.undoAdvance).st = s.st := rfl
@[simp] theorem undoAdvance_fb : (s.undoAdvance).fb = s.fb := rfl
@[simp] theorem undoAdvance_mem : (s.undoAdvance).mem = s.mem := rfl
@[simp] theorem undoAdvance_status : (s.undoAdvance).status = s.status := rfl
@[simp] theorem undoAdvance_shown : (s.undoAdvance).shown = s.shown := rfl
@[simp] theorem undoAdvance_params : (s.undoAdvance).params = s.params := rfl
@[simp] theorem undoAdvance_schedule : (s.undoAdvance).schedule = s.schedule := rfl
@[simp] theorem undoAdvance_keypadAnswers : (s.undoAdvance).keypadAnswers = s.keypadAnswers := rfl
@[simp] theorem undoAdvance_randomAnswers : (s.undoAdvance).randomAnswers = s.randomAnswers := rfl
@[simp] theorem undoAdvance_keyChoices : (s.undoAdvance).keyChoices = s.keyChoices := rfl
@[simp] theorem undoAdvance_draws : (s.undoAdvance).draws = s.draws := rfl
end

section
variable (s : State)
@[simp] theorem advance_regs : (s.advance).regs = s.regs := rfl
@[simp] theorem advance_pc : (s.advance).pc = s.pc + 2 := rfl
@[simp] theorem advance_loadEnd : (s.advance).loadEnd = s.loadEnd := rfl
@[simp] theorem advance_index : (s.advance).index = s.index := rfl
@[simp] theorem advance_stack : (s.advance).stack = s.stack := rfl
@[simp] theorem advance_dt : (s.advance).dt = s.dt := rfl
@[simp] theorem advance_st : (s.advance).st = s.st := rfl
@[simp] theorem advance_fb : (s.advance).fb = s.fb := rfl
@[simp] theorem advance_mem : (s.advance).mem = s.mem := rfl
@[simp] theorem advance_status : (s.advance).status = s.status := rfl
@[simp] theorem advance_shown : (s.advance).shown = s.shown := rfl
@[simp] theorem advance_params : (s.advance).params = s.params := rfl
@[simp] theorem advance_schedule : (s.advance).schedule = s.schedule := rfl
@[simp] theorem advance_keypadAnswers : (s.advance).keypadAnswers = s.keypadAnswers := rfl
@[simp] theorem advance_randomAnswers : (s.advance).randomAnswers = s.randomAnswers := rfl
@[simp] theorem advance_keyChoices : (s.advance).keyChoices = s.keyChoices := rfl
@[simp] theorem advance_draws : (s.advance).draws = s.draws := rfl
end

section
variable (s : State)
@[simp] theorem tickDelay_regs : (s.tickDelay).regs = s.regs := rfl
@[simp] theorem tickDelay_pc : (s.tickDelay).pc = s.pc := rfl
@[simp] theorem tickDelay_loadEnd : (s.tickDelay).loadEnd = s.loadEnd := rfl
@[simp] theorem tickDelay_index : (s.tickDelay).index = s.index := rfl
@[simp] theorem tickDelay_stack : (s.tickDelay).stack = s.stack := rfl
@[simp] theorem tickDelay_dt : (s.tickDelay).dt = countDown s.dt := rfl
@[simp] theorem tickDelay_st : (s.tickDelay).st = s.st := rfl
@[simp] theorem tickDelay_fb : (s.tickDelay).fb = s.fb := rfl
@[simp] theorem tickDelay_mem : (s.tickDelay).mem = s.mem := rfl
@[simp] theorem tickDelay_status : (s.tickDelay).status = s.status := rfl
@[simp] theorem tickDelay_shown : (s.tickDelay).shown = s.shown := rfl
@[simp] theorem tickDelay_params : (s.tickDelay).params = s.params := rfl
@[simp] theorem tickDelay_schedule : (s.tickDelay).schedule = s.schedule := rfl
@[simp] theorem tickDelay_keypadAnswers : (s.tickDelay).keypadAnswers = s.keypadAnswers := rfl
@[simp] theorem tickDelay_randomAnswers : (s.tickDelay).randomAnswers = s.randomAnswers := rfl
@[simp] theorem tickDelay_keyChoices : (s.tickDelay).keyChoices = s.keyChoices := rfl
@[simp] theorem tickDelay_draws : (s.tickDelay).draws = s.draws := rfl
end

section
variable (s : State)
@[simp] theorem tickSound_regs : (s.tickSound).regs = s.regs := rfl
@[simp] theorem tickSound_pc : (s.tickSound).pc = s.pc := rfl
@[simp] theorem tickSound_loadEnd : (s.tickSound).loadEnd = s.loadEnd := rfl
@[simp] theorem tickSound_index : (s.tickSound).index = s.index := rfl
@[simp] theorem tickSound_stack : (s.tickSound).stack = s.stack := rfl
@[simp] theorem tickSound_dt : (s.tickSound).dt = s.dt := rfl
@[simp] theorem tickSound_st : (s.tickSound).st = countDown s.st := rfl
@[simp] theorem tickSound_fb : (s.tickSound).fb = s.fb := rfl
@[simp] theorem tickSound_mem : (s.tickSound).mem = s.mem := rfl
@[simp] theorem tickSound_status : (s.tickSound).status = s.status := rfl
@[simp] theorem tickSound_shown : (s.tickSound).shown = s.shown := rfl
@[simp] theorem tickSound_params : (s.tickSound).params = s.params := rfl
@[simp] theorem tickSound_schedule : (s.tickSound).schedule = s.schedule := rfl
@[simp] theorem tickSound_keypadAnswers : (s.tickSound).keypadAnswers = s.keypadAnswers := rfl
@[simp] theorem tickSound_randomAnswers : (s.tickSound).randomAnswers = s.randomAnswers := rfl
@[simp] theorem tickSound_keyChoices : (s.tickSound).keyChoices = s.keyChoices := rfl
@[simp] theorem tickSound_draws : (s.tickSound).draws = s.draws := rfl
end

section
variable (s : State)
@[simp] theorem refresh_regs : (s.refresh).regs = s.regs := rfl
@[simp] theorem refresh_pc : (s.refresh).pc = s.pc := rfl
@[simp] theorem refresh_loadEnd : (s.refresh).loadEnd = s.loadEnd := rfl
@[simp] theorem refresh_index : (s.refresh).index = s.index := rfl
@[simp] theorem refresh_stack : (s.refresh).stack = s.stack := rfl
@[simp] theorem refresh_dt : (s.refresh).dt = s.dt := rfl
@[simp] theorem refresh_st : (s.refresh).st = s.st := rfl
@[simp] theorem refresh_fb : (s.refresh).fb = s.fb := rfl
@[simp] theorem refresh_mem : (s.refresh).mem = s.mem := rfl
@[simp] theorem refresh_status : (s.refresh).status = s.status := rfl
@[simp] theorem refresh_shown : (s.refresh).shown = s.fb := rfl
@[simp] theorem refresh_params : (s.refresh).params = s.params := rfl
@[simp] theorem refresh_schedule : (s.refresh).schedule = s.schedule := rfl
@[simp] theorem refresh_keypadAnswers : (s.refresh).keypadAnswers = s.keypadAnswers := rfl
@[simp] theorem refresh_randomAnswers : (s.refresh).randomAnswers = s.randomAnswers := rfl
@[simp] theorem refresh_keyChoices : (s.refresh).keyChoices = s.keyChoices := rfl
@[simp] theorem refresh_draws : (s.refresh).draws = s.draws := rfl
end

/-- Writing VF as a flag is a register write. -/
@[simp] theorem setFlag_eq (s : State) (b : Bool) : s.setFlag b = s.setReg vf (flagByte b) := rfl

@[simp] theorem setResultThenFlag_eq (s : State) (x : RegIdx) (v : Byte) (b : Bool) :
    s.setResultThenFlag x v b = (s.setReg x v).setReg vf (flagByte b) := rfl

/-- A register read sees the register file alone. -/
theorem reg_of_regs {s t : State} (h : t.regs = s.regs) (r : RegIdx) : t.reg r = s.reg r := by
  simp [reg, h]

/-- A register write is seen at its index and nowhere else. -/
theorem reg_setReg (s : State) (r q : RegIdx) (v : Byte) :
    (s.setReg r v).reg q = if q = r then v else s.reg q := by
  by_cases h : q = r
  · subst h; simp [reg, setReg]
  · have : r.toNat ≠ q.toNat := fun e => h (BitVec.eq_of_toNat_eq e.symm)
    simp [reg, setReg, h, this]

@[simp] theorem reg_setReg_same (s : State) (r : RegIdx) (v : Byte) : (s.setReg r v).reg r = v := by
  simp [reg_setReg]

@[simp] theorem reg_setReg_of_ne (s : State) {r q : RegIdx} (v : Byte) (h : q ≠ r) :
    (s.setReg r v).reg q = s.reg q := by
  simp [reg_setReg, h]

/-- A block load writes the registers up to its bound and leaves the others. -/
@[simp] theorem reg_setRegsUpTo (s : State) (x q : RegIdx) (f : Nat → Byte) :
    (s.setRegsUpTo x f).reg q = if q.toNat ≤ x.toNat then f q.toNat else s.reg q := by
  simp [reg, setRegsUpTo, blockLoaded]

/-- Two register files with the same registers are equal. -/
theorem regs_ext {s t : State} (h : ∀ r, t.reg r = s.reg r) : t.regs = s.regs := by
  apply Vector.ext
  intro k hk
  have := h (BitVec.ofNat 4 k)
  have e : (BitVec.ofNat 4 k).toNat = k := by simp; omega
  simpa [reg, e] using this

/-- A skip changes `pc` alone. -/
theorem skipIf_eq (s : State) (b : Bool) :
    s.skipIf b = { s with pc := if b then s.pc + 2 else s.pc } := by
  cases b <;> rfl

/-- The flag write of `AddToIndex` under the quirk, by cases of the parameter. -/
theorem quirkFlag_eq (s : State) (b : Bool) :
    s.quirkFlag b = if s.params.quirkAddIndexFlag then s.setReg vf (flagByte b) else s := rfl

/-- The named updates that leave the registers alone leave every register alone. -/
@[simp] theorem reg_jumpTo (s : State) (a : Word) (r : RegIdx) : (s.jumpTo a).reg r = s.reg r := rfl
@[simp] theorem reg_push (s : State) (a : Word) (r : RegIdx) : (s.push a).reg r = s.reg r := rfl
@[simp] theorem reg_dropTop (s : State) (r : RegIdx) : s.dropTop.reg r = s.reg r := rfl
@[simp] theorem reg_stopWith (s : State) (c : Cause) (r : RegIdx) : (s.stopWith c).reg r = s.reg r := rfl
@[simp] theorem reg_undoAdvance (s : State) (r : RegIdx) : s.undoAdvance.reg r = s.reg r := rfl
@[simp] theorem reg_advance (s : State) (r : RegIdx) : s.advance.reg r = s.reg r := rfl

end Sys2Proof.Machine.State
end

