-- ==== Sys2Proof/Laws/Ops.lean ====
section
/-! SUPPORT. What each shared operation can do: raising a fault, the checked operands, the
environment's answers. -/

namespace Sys2Proof.Machine

open Sys2Proof.Config

/-- A raised fault is a next state in which `pc` and `status` alone have changed (R191). -/
theorem raise_eq (c : Cause) (s : State) :
    raise c s = .next { s with pc := s.pc - 2, status := .faulted c } := rfl

/-- The range check in the spec's words: no byte, or a last address of at most 4095 (R63). -/
theorem rangeFits_iff (s : State) (count : Nat) :
    s.rangeFits count = true ↔ count = 0 ∨ s.index.toNat + count ≤ 4096 := by
  unfold State.rangeFits State.elementAddress
  rw [Bool.or_eq_true, beq_iff_eq, decide_eq_true_iff]
  omega

theorem withRange_fits {count : Nat} {s : State} (effect : State → Result)
    (h : s.rangeFits count = true) : withRange count s effect = effect s := by
  simp [withRange, h]

theorem withRange_outside {count : Nat} {s : State} (effect : State → Result)
    (h : s.rangeFits count = false) :
    withRange count s effect = raise (.memoryOutOfRange s.index) s := by
  simp [withRange, h]

theorem withKeyIndex_key {k : Byte} {s : State} (effect : State → Result) (h : k.toNat ≤ 15) :
    withKeyIndex k s effect = effect s := by
  simp [withKeyIndex, h]

theorem withKeyIndex_outside {k : Byte} {s : State} (effect : State → Result) (h : 15 < k.toNat) :
    withKeyIndex k s effect = raise (.keyIndexOutOfRange k) s := by
  simp [withKeyIndex, Nat.not_le.mpr h]

theorem withFontDigit_digit {d : Byte} {s : State} (effect : State → Result) (h : d.toNat ≤ 15) :
    withFontDigit d s effect = effect s := by
  simp [withFontDigit, h]

theorem withFontDigit_outside {d : Byte} {s : State} (effect : State → Result) (h : 15 < d.toNat) :
    withFontDigit d s effect = raise (.fontDigitOutOfRange d) s := by
  simp [withFontDigit, Nat.not_le.mpr h]

/-! ### The environment's answers -/

/-- Sampling the keypad changes only what the environment has fixed. -/
theorem keypadSample_state (s : State) : s.keypadSample.2 =
    { s with keypadAnswers := s.keypadSample.2.keypadAnswers, draws := s.keypadSample.2.draws } := by
  unfold State.keypadSample
  split <;> rfl

/-- Drawing the random byte changes only what the environment has fixed. -/
theorem randomByte_state (s : State) : s.randomByte.2 =
    { s with randomAnswers := s.randomByte.2.randomAnswers, draws := s.randomByte.2.draws } := by
  unfold State.randomByte
  split <;> rfl

/-- Drawing a preference changes only what the environment has fixed. -/
theorem keyPreference_state (s : State) : s.keyPreference.2 =
    { s with keyChoices := s.keyPreference.2.keyChoices, draws := s.keyPreference.2.draws } := by
  unfold State.keyPreference
  split <;> rfl

theorem keypadSample_answered {s : State} {keys : BitVec 16} {rest : List (BitVec 16)}
    (h : s.keypadAnswers = keys :: rest) :
    s.keypadSample = (keys, { s with keypadAnswers := rest }) := by
  simp [State.keypadSample, h]

theorem randomByte_answered {s : State} {r : Byte} {rest : List Byte}
    (h : s.randomAnswers = r :: rest) :
    s.randomByte = (r, { s with randomAnswers := rest }) := by
  simp [State.randomByte, h]

theorem keyPreference_answered {s : State} {c : Nibble} {rest : List Nibble}
    (h : s.keyChoices = c :: rest) :
    s.keyPreference = (c, { s with keyChoices := rest }) := by
  simp [State.keyPreference, h]

/-- A search from `k` that covers a pressed key finds a pressed key. -/
theorem lowestPressed_pressed (keys : BitVec 16) (fuel : Nat) : ∀ k j, k ≤ j → j < k + fuel →
    k + fuel ≤ 16 → keys.getLsbD j = true →
      keys.getLsbD (lowestPressed keys k fuel).toNat = true := by
  induction fuel with
  | zero => intro k j h1 h2; omega
  | succ n ih =>
    intro k j h1 h2 h3 hj
    unfold lowestPressed
    split
    · next h => rwa [BitVec.toNat_ofNat, Nat.mod_eq_of_lt (by omega)]
    · next h =>
      have : k ≠ j := by rintro rfl; exact h hj
      exact ih (k + 1) j (by omega) (by omega) (by omega) hj

/-- Where some key is pressed, the key reported is a pressed one (R171). -/
theorem pickKey_pressed {keys : BitVec 16} (c : Nibble) (h : keys ≠ 0) :
    keys.getLsbD (pickKey keys c).toNat = true := by
  unfold pickKey
  split
  · assumption
  · obtain ⟨j, hj⟩ : ∃ j, keys.getLsbD j = true := by
      by_contra hn
      apply h
      apply BitVec.eq_of_getLsbD_eq
      intro j _
      have := not_exists.mp hn j
      simpa using this
    have hj16 : j < 16 := BitVec.lt_of_getLsbD hj
    exact lowestPressed_pressed keys 16 0 j (by omega) (by omega) (by omega) hj

/-- Every pressed key is reported for some preference (R171). -/
theorem pickKey_of_pressed {keys : BitVec 16} {c : Nibble} (h : keys.getLsbD c.toNat = true) :
    pickKey keys c = c := by
  simp [pickKey, h]

end Sys2Proof.Machine
end

