-- ==== Sys2Proof/Laws/Display.lean ====
section
/-! SUPPORT. The drawing unit: what each loop of R181 does to the pixels and to the collision flag. -/

namespace Sys2Proof.Machine

/-! ### Pixels -/

theorem Framebuffer.pixel_lt {fb : Framebuffer} {col row : Nat} (h : fb.pixel col row = true) :
    col < 64 ∧ row < 32 := by
  unfold Framebuffer.pixel at h
  split at h
  · next hr => exact ⟨BitVec.lt_of_getLsbD h, hr⟩
  · simp at h

/-- Toggling a pixel flips it and leaves every other pixel alone. -/
theorem Framebuffer.pixel_toggle (fb : Framebuffer) {c r : Nat} (hc : c < 64) (hr : r < 32)
    (col row : Nat) :
    (fb.toggle c r).pixel col row = (fb.pixel col row ^^ decide (col = c ∧ row = r)) := by
  unfold Framebuffer.toggle Framebuffer.pixel
  simp only [hr, dif_pos]
  by_cases hrow : row < 32
  · simp only [hrow, dif_pos]
    by_cases e : row = r
    · subst e
      simp only [Vector.getElem_set_self, BitVec.getLsbD_xor, BitVec.getLsbD_twoPow, and_true, hc,
        decide_true, Bool.true_and]
      simp only [eq_comm]
    · simp [Ne.symm e, e]
  · simp only [hrow, dif_neg, not_false_eq_true, Bool.false_bne]
    have : row ≠ r := by omega
    simp [this]

@[simp] theorem Framebuffer.pixel_clear (col row : Nat) :
    Framebuffer.clear.pixel col row = false := by
  unfold Framebuffer.clear Framebuffer.pixel
  split <;> simp

/-- Two framebuffers with the same pixels are equal. -/
theorem Framebuffer.ext_pixel {a b : Framebuffer}
    (h : ∀ col row, col < 64 → row < 32 → a.pixel col row = b.pixel col row) : a = b := by
  apply Vector.ext
  intro row hrow
  apply BitVec.eq_of_getLsbD_eq
  intro col hcol
  have := h col row hcol hrow
  simpa [Framebuffer.pixel, hrow] using this

/-! ### Drawing a shape -/

/-- `v'` is `v` with the shape drawn: each of its pixels XORed, and the collision flag set if one of
them was on (R183). -/
structure Draws (v v' : Canvas) (shape : Nat → Nat → Bool) : Prop where
  pixel : ∀ col row, v'.fb.pixel col row = (v.fb.pixel col row ^^ shape col row)
  hit : v'.collision = true ↔
    v.collision = true ∨ ∃ col row, v.fb.pixel col row = true ∧ shape col row = true

/-- Drawing nothing. -/
theorem Draws.nothing (v : Canvas) {shape : Nat → Nat → Bool} (h : ∀ col row, shape col row = false) :
    Draws v v shape where
  pixel := by simp [h]
  hit := by simp [h]

/-- Drawing two shapes with no pixel in common is drawing their union. -/
theorem Draws.trans {u v w : Canvas} {a b c : Nat → Nat → Bool} (huv : Draws u v a)
    (hvw : Draws v w b) (hdis : ∀ col row, a col row = true → b col row = false)
    (hc : ∀ col row, c col row = (a col row || b col row)) : Draws u w c where
  pixel col row := by
    rw [hvw.pixel, huv.pixel, hc]
    have := hdis col row
    cases ha : a col row <;> cases hb : b col row <;> simp_all
  hit := by
    rw [hvw.hit, huv.hit, or_assoc]
    apply or_congr Iff.rfl
    constructor
    · rintro (⟨col, row, hp, ha⟩ | ⟨col, row, hp, hb⟩)
      · exact ⟨col, row, hp, by simp [hc, ha]⟩
      · refine ⟨col, row, ?_, by simp [hc, hb]⟩
        have ha : a col row = false := by
          cases ha : a col row
          · rfl
          · simp [hdis col row ha] at hb
        simpa [huv.pixel, ha] using hp
    · rintro ⟨col, row, hp, h⟩
      rw [hc] at h
      cases ha : a col row
      · exact .inr ⟨col, row, by simpa [huv.pixel, ha] using hp, by simpa [ha] using h⟩
      · exact .inl ⟨col, row, hp, ha⟩

/-! ### The loops of R181 -/

/-- The pixels of the first `n` bits of a row byte at column `x0` of row `yy`, clipped (R182). -/
def rowShape (x0 yy n : Nat) (byte : Byte) (col row : Nat) : Bool :=
  decide (row = yy ∧ row < 32 ∧ col < 64 ∧ x0 ≤ col ∧ col < x0 + n) && byte.getLsbD (7 - (col - x0))

theorem plotBit_draws (v : Canvas) (x0 : Nat) {yy : Nat} (byte : Byte) (c : Nat) (hy : yy < 32) :
    Draws v (v.plotBit x0 yy byte c) fun col row =>
      decide (row = yy ∧ col < 64 ∧ col = x0 + c) && byte.getLsbD (7 - c) := by
  unfold Canvas.plotBit
  split
  · next h =>
    obtain ⟨hx, hb⟩ := h
    constructor
    · intro col row
      rw [Framebuffer.pixel_toggle _ (by omega) hy, hb, Bool.and_true]
      congr 1
      apply decide_eq_decide.mpr
      constructor
      · rintro ⟨rfl, rfl⟩; exact ⟨rfl, by omega, rfl⟩
      · rintro ⟨rfl, -, rfl⟩; exact ⟨rfl, rfl⟩
    · simp only [Bool.or_eq_true, hb, Bool.and_true, decide_eq_true_eq]
      constructor
      · rintro (h | h)
        · exact .inl h
        · exact .inr ⟨_, _, h, rfl, by omega, rfl⟩
      · rintro (h | ⟨col, row, h, rfl, -, rfl⟩)
        · exact .inl h
        · exact .inr h
  · next h =>
    apply Draws.nothing
    intro col row
    by_contra hne
    rw [Bool.not_eq_false, Bool.and_eq_true, decide_eq_true_eq] at hne
    exact h ⟨by omega, hne.2⟩

theorem plotBits_draw (v : Canvas) (x0 : Nat) {yy : Nat} (byte : Byte) (hy : yy < 32) (n : Nat) :
    Draws v ((List.range n).foldl (fun v c => v.plotBit x0 yy byte c) v) (rowShape x0 yy n byte) := by
  induction n with
  | zero =>
    apply Draws.nothing
    intro col row
    have : ¬(row = yy ∧ row < 32 ∧ col < 64 ∧ x0 ≤ col ∧ col < x0 + 0) := by omega
    simp only [rowShape, this, decide_false, Bool.false_and]
  | succ n ih =>
    rw [List.range_succ, List.foldl_append]
    refine ih.trans (plotBit_draws _ x0 byte n hy) ?_ ?_
    · intro col row h
      simp only [rowShape, Bool.and_eq_true, decide_eq_true_eq] at h
      have : ¬(row = yy ∧ col < 64 ∧ col = x0 + n) := by omega
      simp [this]
    · intro col row
      by_cases e : row = yy ∧ col < 64 ∧ col = x0 + n
      · obtain ⟨rfl, hc, rfl⟩ := e
        simp [rowShape, hy, hc]
      · have : (row = yy ∧ row < 32 ∧ col < 64 ∧ x0 ≤ col ∧ col < x0 + (n + 1)) ↔
            (row = yy ∧ row < 32 ∧ col < 64 ∧ x0 ≤ col ∧ col < x0 + n) := by omega
        simp [rowShape, this, e]

theorem plotRow_draws (v : Canvas) (x0 yy : Nat) (byte : Byte) :
    Draws v (v.plotRow x0 yy byte) (rowShape x0 yy 8 byte) := by
  unfold Canvas.plotRow
  split
  · exact plotBits_draw v x0 byte (by omega) 8
  · apply Draws.nothing
    intro col row
    have : ¬(row = yy ∧ row < 32 ∧ col < 64 ∧ x0 ≤ col ∧ col < x0 + 8) := by omega
    simp [rowShape, this]

/-- The pixels of a sprite whose rows start at column `x0` of row `yy`, clipped (R182). -/
def spriteShape (x0 yy : Nat) (rows : List Byte) (col row : Nat) : Bool :=
  decide (yy ≤ row ∧ row < yy + rows.length ∧ row < 32 ∧ col < 64 ∧ x0 ≤ col ∧ col < x0 + 8) &&
    (rows.getD (row - yy) 0).getLsbD (7 - (col - x0))

/-- The outer loop of R181 draws the clipped sprite. -/
theorem plotRows_draw (x0 : Nat) (rows : List Byte) : ∀ (v : Canvas) (yy : Nat),
    Draws v (v.plotRows x0 yy rows) (spriteShape x0 yy rows) := by
  induction rows with
  | nil =>
    intro v yy
    apply Draws.nothing
    intro col row
    have : ¬(yy ≤ row ∧ row < yy + ([] : List Byte).length ∧ row < 32 ∧ col < 64 ∧ x0 ≤ col ∧
      col < x0 + 8) := by simp only [List.length_nil]; omega
    simp only [spriteShape, this, decide_false, Bool.false_and]
  | cons byte rest ih =>
    intro v yy
    refine (plotRow_draws v x0 yy byte).trans (ih _ _) ?_ ?_
    · intro col row h
      simp only [rowShape, Bool.and_eq_true, decide_eq_true_eq] at h
      have : ¬(yy + 1 ≤ row ∧ row < yy + 1 + rest.length ∧ row < 32 ∧ col < 64 ∧ x0 ≤ col ∧
        col < x0 + 8) := by omega
      simp only [spriteShape, this, decide_false, Bool.false_and]
    · intro col row
      by_cases e : row = yy
      · subst e
        have h1 : ¬(row + 1 ≤ row ∧ row < row + 1 + rest.length ∧ row < 32 ∧ col < 64 ∧ x0 ≤ col ∧
          col < x0 + 8) := by omega
        simp only [spriteShape, rowShape, h1, decide_false, Bool.false_and, Bool.or_false,
          Nat.sub_self, List.getD_cons_zero, List.length_cons, true_and]
        congr 1
        apply decide_eq_decide.mpr
        omega
      · have h1 : ¬(row = yy ∧ row < 32 ∧ col < 64 ∧ x0 ≤ col ∧ col < x0 + 8) := by omega
        simp only [spriteShape, rowShape, h1, decide_false, Bool.false_and, Bool.false_or]
        by_cases hr : yy + 1 ≤ row
        · obtain ⟨k, hk⟩ : ∃ k, row - yy = k + 1 := ⟨row - yy - 1, by omega⟩
          have hk' : row - (yy + 1) = k := by omega
          rw [hk, hk', List.getD_cons_succ]
          congr 1
          apply decide_eq_decide.mpr
          simp only [List.length_cons]
          omega
        · have h2 : ¬(yy ≤ row ∧ row < yy + (byte :: rest).length ∧ row < 32 ∧ col < 64 ∧ x0 ≤ col ∧
            col < x0 + 8) := by omega
          have h3 : ¬(yy + 1 ≤ row ∧ row < yy + 1 + rest.length ∧ row < 32 ∧ col < 64 ∧ x0 ≤ col ∧
            col < x0 + 8) := by omega
          simp only [h2, h3, decide_false, Bool.false_and]

end Sys2Proof.Machine
end

