-- ==== Sys2Proof/Laws/Encoding.lean ====
section
/-! SUPPORT. The fields of the words the encoder packs, and the bytes of a word. -/

namespace Sys2Proof

/-! ### Slices of appended bit vectors -/

/-- The upper part of an append. -/
theorem extract_high {m n : Nat} (a : BitVec m) (b : BitVec n) : (a ++ b).extractLsb' n m = a := by
  apply BitVec.eq_of_getLsbD_eq
  intro k hk
  simp [BitVec.getLsbD_append, hk]

/-- The lower part of an append. -/
theorem extract_low {m n : Nat} (a : BitVec m) (b : BitVec n) : (a ++ b).extractLsb' 0 n = b := by
  apply BitVec.eq_of_getLsbD_eq
  intro k hk
  simp [BitVec.getLsbD_append, hk]

/-- A slice that lies in the upper part of an append. -/
theorem extract_above {m n k l : Nat} (a : BitVec m) (b : BitVec n) :
    (a ++ b).extractLsb' (n + k) l = a.extractLsb' k l := by
  apply BitVec.eq_of_getLsbD_eq
  intro j hj
  have h1 : ¬(n + k + j < n) := by omega
  have h2 : n + k + j - n = k + j := by omega
  simp [BitVec.getLsbD_append, hj, h1, h2]

/-- A word is the append of its two halves. -/
theorem append_halves {m n : Nat} (w : BitVec (m + n)) :
    w.extractLsb' n m ++ w.extractLsb' 0 n = w := by
  simp

/-! ### Fields of packed words (R91, R92) -/

@[simp] theorem family_packA (op : Nibble) (nnn : Addr12) : family (packA op nnn) = op :=
  extract_high (m := 4) (n := 12) op nnn
@[simp] theorem fieldNNN_packA (op : Nibble) (nnn : Addr12) : fieldNNN (packA op nnn) = nnn :=
  extract_low (m := 4) (n := 12) op nnn

@[simp] theorem family_packRI (op : Nibble) (x : RegIdx) (nn : Byte) : family (packRI op x nn) = op :=
  (extract_above (m := 8) (n := 8) (k := 4) (l := 4) (op ++ x) nn).trans (extract_high op x)
@[simp] theorem fieldX_packRI (op : Nibble) (x : RegIdx) (nn : Byte) : fieldX (packRI op x nn) = x :=
  (extract_above (m := 8) (n := 8) (k := 0) (l := 4) (op ++ x) nn).trans (extract_low op x)
@[simp] theorem fieldNN_packRI (op : Nibble) (x : RegIdx) (nn : Byte) : fieldNN (packRI op x nn) = nn :=
  extract_low (m := 8) (n := 8) (op ++ x) nn

@[simp] theorem family_packRRN (op : Nibble) (x y : RegIdx) (n : Nibble) :
    family (packRRN op x y n) = op :=
  (extract_above (m := 12) (n := 4) (k := 8) (l := 4) (op ++ x ++ y) n).trans
    ((extract_above (m := 8) (n := 4) (k := 4) (l := 4) (op ++ x) y).trans (extract_high op x))
@[simp] theorem fieldX_packRRN (op : Nibble) (x y : RegIdx) (n : Nibble) :
    fieldX (packRRN op x y n) = x :=
  (extract_above (m := 12) (n := 4) (k := 4) (l := 4) (op ++ x ++ y) n).trans
    ((extract_above (m := 8) (n := 4) (k := 0) (l := 4) (op ++ x) y).trans (extract_low op x))
@[simp] theorem fieldY_packRRN (op : Nibble) (x y : RegIdx) (n : Nibble) :
    fieldY (packRRN op x y n) = y :=
  (extract_above (m := 12) (n := 4) (k := 0) (l := 4) (op ++ x ++ y) n).trans
    (extract_low (op ++ x) y)
@[simp] theorem fieldN_packRRN (op : Nibble) (x y : RegIdx) (n : Nibble) :
    fieldN (packRRN op x y n) = n :=
  extract_low (m := 12) (n := 4) (op ++ x ++ y) n

/-! ### The masks of R100 on packed words -/

/-- A mask of two parts masks each part. -/
theorem and_append_parts {m n : Nat} (a c : BitVec m) (b d : BitVec n) :
    (a ++ b) &&& (c ++ d) = (a &&& c) ++ (b &&& d) := by
  apply BitVec.eq_of_getLsbD_eq
  intro k hk
  by_cases h : k < n <;> simp [BitVec.getLsbD_append, h]

theorem packA_and_op (op : Nibble) (nnn : Addr12) : packA op nnn &&& 0xF000#16 = packA op 0 := by
  have h := and_append_parts (m := 4) (n := 12) op 0xF#4 nnn 0x000#12
  have e1 : op &&& 0xF#4 = op := BitVec.and_allOnes
  rw [e1, show nnn &&& 0x000#12 = 0x000#12 from BitVec.and_zero] at h
  exact h

/-- The mask of a format is the mask of its bytes, and those of its nibbles. -/
theorem packRI_and (op c : Nibble) (x d : RegIdx) (nn e : Byte) :
    packRI op x nn &&& packRI c d e = packRI (op &&& c) (x &&& d) (nn &&& e) := by
  have h := and_append_parts (m := 8) (n := 8) (op ++ x) (c ++ d) nn e
  rw [and_append_parts op c x d] at h
  exact h

theorem packRRN_and (op c : Nibble) (x d y e : RegIdx) (n f : Nibble) :
    packRRN op x y n &&& packRRN c d e f = packRRN (op &&& c) (x &&& d) (y &&& e) (n &&& f) := by
  have h := and_append_parts (m := 12) (n := 4) (op ++ x ++ y) (c ++ d ++ e) n f
  rw [and_append_parts (m := 8) (n := 4) (op ++ x) (c ++ d) y e, and_append_parts op c x d] at h
  exact h

theorem packRI_and_op (op : Nibble) (x : RegIdx) (nn : Byte) :
    packRI op x nn &&& 0xF000#16 = packRI op 0 0 := by
  have h := packRI_and op 0xF x 0 nn 0
  rwa [show op &&& 0xF = op from BitVec.and_allOnes, show x &&& 0 = 0 from BitVec.and_zero,
    show nn &&& 0 = 0 from BitVec.and_zero] at h

theorem packRI_and_function (op : Nibble) (x : RegIdx) (fn : Byte) :
    packRI op x fn &&& 0xF0FF#16 = packRI op 0 fn := by
  have h := packRI_and op 0xF x 0 fn 0xFF
  rwa [show op &&& 0xF = op from BitVec.and_allOnes, show x &&& 0 = 0 from BitVec.and_zero,
    show fn &&& 0xFF = fn from BitVec.and_allOnes] at h

theorem packRRN_and_op (op : Nibble) (x y : RegIdx) (n : Nibble) :
    packRRN op x y n &&& 0xF000#16 = packRRN op 0 0 0 := by
  have h := packRRN_and op 0xF x 0 y 0 n 0
  rwa [show op &&& 0xF = op from BitVec.and_allOnes, show x &&& 0 = 0 from BitVec.and_zero,
    show y &&& 0 = 0 from BitVec.and_zero, show n &&& 0 = 0 from BitVec.and_zero] at h

theorem packRRN_and_sub (op : Nibble) (x y : RegIdx) (n : Nibble) :
    packRRN op x y n &&& 0xF00F#16 = packRRN op 0 0 n := by
  have h := packRRN_and op 0xF x 0 y 0 n 0xF
  rwa [show op &&& 0xF = op from BitVec.and_allOnes, show x &&& 0 = 0 from BitVec.and_zero,
    show y &&& 0 = 0 from BitVec.and_zero, show n &&& 0xF = n from BitVec.and_allOnes] at h

/-! ### The bytes of a word (R64) -/

/-- The high and low bytes of a word make the word again. -/
@[simp] theorem wordOfBytes_bytesOfWord (w : Word) :
    wordOfBytes (bytesOfWord w).1 (bytesOfWord w).2 = w :=
  append_halves (m := 8) (n := 8) w

end Sys2Proof
end

