-- ==== Sys2Proof/Laws/Exec.lean ====
section
/-! SUPPORT. What executing an instruction can do, said once. -/

namespace Sys2Proof.Machine

/-- A checked range either runs the effect or raises `MemoryOutOfRange(I)`. -/
theorem withRange_cases (count : Nat) (s : State) (effect : State → Result) :
    (s.index.toNat + count ≤ 4096 ∨ count = 0) ∧ withRange count s effect = effect s ∨
    (4096 < s.index.toNat + count ∧ 0 < count) ∧
      withRange count s effect = raise (.memoryOutOfRange s.index) s := by
  cases h : s.rangeFits count with
  | true => exact .inl ⟨((rangeFits_iff s count).mp h).symm, withRange_fits effect h⟩
  | false =>
    have hn : ¬(count = 0 ∨ s.index.toNat + count ≤ 4096) := by
      rw [← rangeFits_iff]; simp [h]
    exact .inr ⟨by omega, withRange_outside effect h⟩

/-- A key number either is one or raises `KeyIndexOutOfRange`. -/
theorem withKeyIndex_cases (k : Byte) (s : State) (effect : State → Result) :
    k.toNat ≤ 15 ∧ withKeyIndex k s effect = effect s ∨
    15 < k.toNat ∧ withKeyIndex k s effect = raise (.keyIndexOutOfRange k) s := by
  by_cases h : k.toNat ≤ 15
  · exact .inl ⟨h, withKeyIndex_key effect h⟩
  · exact .inr ⟨by omega, withKeyIndex_outside effect (by omega)⟩

/-- A font digit either is one or raises `FontDigitOutOfRange`. -/
theorem withFontDigit_cases (d : Byte) (s : State) (effect : State → Result) :
    d.toNat ≤ 15 ∧ withFontDigit d s effect = effect s ∨
    15 < d.toNat ∧ withFontDigit d s effect = raise (.fontDigitOutOfRange d) s := by
  by_cases h : d.toNat ≤ 15
  · exact .inl ⟨h, withFontDigit_digit effect h⟩
  · exact .inr ⟨by omega, withFontDigit_outside effect (by omega)⟩

/-- The stack is full exactly when a finite depth is reached (R193). -/
theorem stackFull_iff (s : State) :
    s.stackFull = true ↔ s.params.stackDepth = some s.stack.length := by
  unfold State.stackFull
  split
  · next h => simp only [h, Bool.false_eq_true, reduceCtorEq]
  · next d h => rw [h, beq_iff_eq, Option.some.injEq, eq_comm]

/-- A call either pushes and jumps or raises `StackOverflow`. -/
theorem execPushSubroutine_cases (nnn : Addr12) (s : State) :
    s.params.stackDepth ≠ some s.stack.length ∧
      execPushSubroutine nnn s = .next ((s.push s.pc).jumpTo (absoluteTarget nnn)) ∨
    s.params.stackDepth = some s.stack.length ∧
      execPushSubroutine nnn s = raise (.stackOverflow s.stack.length) s := by
  unfold execPushSubroutine
  cases h : s.stackFull with
  | true => exact .inr ⟨(stackFull_iff s).mp h, by simp⟩
  | false => exact .inl ⟨fun e => by simp [(stackFull_iff s).mpr e] at h, by simp⟩

/-- A return either pops and jumps or raises `StackUnderflow`. -/
theorem execPopSubroutine_cases (s : State) :
    (∃ init t, s.stack = init ++ [t] ∧ execPopSubroutine s = .next { s with stack := init, pc := t }) ∨
    s.stack = [] ∧ execPopSubroutine s = raise .stackUnderflow s := by
  unfold execPopSubroutine
  rcases List.eq_nil_or_concat s.stack with h | ⟨init, t, h⟩
  · exact .inr ⟨h, by simp [h]⟩
  · rw [List.concat_eq_append] at h
    exact .inl ⟨init, t, h, by simp [h, State.dropTop, State.jumpTo]⟩

/-- The memory instructions and `PointChar`, `SkipIfPressed`, `SkipIfNotPressed`: the effect, or the
one fault R190 gives the instruction. -/
theorem execToDecimal_cases (x : RegIdx) (s : State) :
    s.index.toNat + 3 ≤ 4096 ∧ execToDecimal x s =
      .next { s with mem := s.mem.writeBytes s.index.toNat (decimalDigits (s.reg x)) } ∨
    4096 < s.index.toNat + 3 ∧ execToDecimal x s = raise (.memoryOutOfRange s.index) s :=
  (withRange_cases 3 s _).imp (fun h => ⟨by omega, h.2⟩) (fun h => ⟨h.1.1, h.2⟩)

theorem execStoreRegisters_cases (x : RegIdx) (s : State) :
    s.index.toNat + (x.toNat + 1) ≤ 4096 ∧ execStoreRegisters x s =
      .next { s with mem := s.mem.writeBytes s.index.toNat (s.regsUpTo x) } ∨
    4096 < s.index.toNat + (x.toNat + 1) ∧
      execStoreRegisters x s = raise (.memoryOutOfRange s.index) s :=
  (withRange_cases (x.toNat + 1) s _).imp (fun h => ⟨by omega, h.2⟩) (fun h => ⟨h.1.1, h.2⟩)

theorem execLoadRegisters_cases (x : RegIdx) (s : State) :
    s.index.toNat + (x.toNat + 1) ≤ 4096 ∧ execLoadRegisters x s =
      .next (s.setRegsUpTo x fun k => s.mem.read (s.elementAddress k)) ∨
    4096 < s.index.toNat + (x.toNat + 1) ∧
      execLoadRegisters x s = raise (.memoryOutOfRange s.index) s :=
  (withRange_cases (x.toNat + 1) s _).imp (fun h => ⟨by omega, h.2⟩) (fun h => ⟨h.1.1, h.2⟩)

theorem execDisplay_cases (x y : RegIdx) (n : Nibble) (s : State) :
    (s.index.toNat + n.toNat ≤ 4096 ∨ n.toNat = 0) ∧ execDisplay x y n s =
      .next ({ s with fb := (s.drawSprite x y n.toNat).fb }.setReg vf
        (flagByte (s.drawSprite x y n.toNat).collision)) ∨
    (4096 < s.index.toNat + n.toNat ∧ 0 < n.toNat) ∧
      execDisplay x y n s = raise (.memoryOutOfRange s.index) s :=
  withRange_cases n.toNat s _

theorem execPointChar_cases (x : RegIdx) (s : State) :
    (s.reg x).toNat ≤ 15 ∧ execPointChar x s = .next { s with index := glyphAddress (s.reg x) } ∨
    15 < (s.reg x).toNat ∧ execPointChar x s = raise (.fontDigitOutOfRange (s.reg x)) s :=
  withFontDigit_cases (s.reg x) s _

theorem execSkipIfPressed_cases (x : RegIdx) (s : State) :
    (s.reg x).toNat ≤ 15 ∧ execSkipIfPressed x s =
      .next (s.keypadSample.2.skipIf (s.keypadSample.1.getLsbD (s.reg x).toNat)) ∨
    15 < (s.reg x).toNat ∧ execSkipIfPressed x s = raise (.keyIndexOutOfRange (s.reg x)) s :=
  withKeyIndex_cases (s.reg x) s _

theorem execSkipIfNotPressed_cases (x : RegIdx) (s : State) :
    (s.reg x).toNat ≤ 15 ∧ execSkipIfNotPressed x s =
      .next (s.keypadSample.2.skipIf (!s.keypadSample.1.getLsbD (s.reg x).toNat)) ∨
    15 < (s.reg x).toNat ∧ execSkipIfNotPressed x s = raise (.keyIndexOutOfRange (s.reg x)) s :=
  withKeyIndex_cases (s.reg x) s _

/-- Executing an instruction always answers a next state: no meaning of the machine ends in a fault or
a refusal of the model, the six exceptions being next states (R190, R191). -/
theorem exec_answers_next (i : Instr) (s : State) : ∃ t, exec i s = .next t := by
  cases i with
  | popSubroutine =>
    rcases execPopSubroutine_cases s with ⟨_, _, _, h⟩ | ⟨_, h⟩ <;> exact ⟨_, h⟩
  | pushSubroutine nnn =>
    rcases execPushSubroutine_cases nnn s with ⟨_, h⟩ | ⟨_, h⟩ <;> exact ⟨_, h⟩
  | display x y n => rcases execDisplay_cases x y n s with ⟨_, h⟩ | ⟨_, h⟩ <;> exact ⟨_, h⟩
  | skipIfPressed x => rcases execSkipIfPressed_cases x s with ⟨_, h⟩ | ⟨_, h⟩ <;> exact ⟨_, h⟩
  | skipIfNotPressed x => rcases execSkipIfNotPressed_cases x s with ⟨_, h⟩ | ⟨_, h⟩ <;> exact ⟨_, h⟩
  | pointChar x => rcases execPointChar_cases x s with ⟨_, h⟩ | ⟨_, h⟩ <;> exact ⟨_, h⟩
  | toDecimal x => rcases execToDecimal_cases x s with ⟨_, h⟩ | ⟨_, h⟩ <;> exact ⟨_, h⟩
  | storeRegisters x => rcases execStoreRegisters_cases x s with ⟨_, h⟩ | ⟨_, h⟩ <;> exact ⟨_, h⟩
  | loadRegisters x => rcases execLoadRegisters_cases x s with ⟨_, h⟩ | ⟨_, h⟩ <;> exact ⟨_, h⟩
  | _ => exact ⟨_, rfl⟩

end Sys2Proof.Machine
end

