-- ==== Sys2Proof/Laws/PerInstr.lean ====
section
/-! SUPPORT. Statements about every instruction as syntax, one lemma per constructor. -/

namespace Sys2Proof.Laws

/-- The encoder's word of a well-formed instruction carries the fixed bits of the instruction's row of
R100; the word of an `Unrecognized` carries those of none. -/
def EncodingRow.Statement (i : Instr) : Prop :=
  i.wellFormed = true →
    match opcodeMap.find? (fun r => r.number == i.rowNumber) with
    | some row => row.takes (encode i) = true
    | none => isDefinedWord (encode i) = false

namespace EncodingRow

/-- The row of a number takes a word that has the row's pattern under its mask. -/
theorem of_mask {i : Instr} {row : OpcodeRow}
    (hrow : opcodeMap.find? (fun r => r.number == i.rowNumber) = some row)
    (h : encode i &&& row.mask = row.pattern) : Statement i := by
  intro _
  simp [hrow, OpcodeRow.takes, h]

theorem clearScreen : Statement .clearScreen := of_mask (row := ⟨1, 0xFFFF, 0x00E0⟩) rfl rfl
theorem popSubroutine : Statement .popSubroutine := of_mask (row := ⟨2, 0xFFFF, 0x00EE⟩) rfl rfl
theorem jump (nnn : Addr12) : Statement (.jump nnn) := of_mask (row := ⟨3, 0xF000, 0x1000⟩) rfl (packA_and_op ..)
theorem pushSubroutine (nnn : Addr12) : Statement (.pushSubroutine nnn) := of_mask (row := ⟨4, 0xF000, 0x2000⟩) rfl (packA_and_op ..)
theorem skipEqualConstant (x : RegIdx) (nn : Byte) : Statement (.skipEqualConstant x nn) := of_mask (row := ⟨5, 0xF000, 0x3000⟩) rfl (packRI_and_op ..)
theorem skipNotEqualConstant (x : RegIdx) (nn : Byte) : Statement (.skipNotEqualConstant x nn) := of_mask (row := ⟨6, 0xF000, 0x4000⟩) rfl (packRI_and_op ..)
theorem skipEqualRegister (x : RegIdx) (y : RegIdx) : Statement (.skipEqualRegister x y) := of_mask (row := ⟨7, 0xF00F, 0x5000⟩) rfl (packRRN_and_sub ..)
theorem setRegister (x : RegIdx) (nn : Byte) : Statement (.setRegister x nn) := of_mask (row := ⟨8, 0xF000, 0x6000⟩) rfl (packRI_and_op ..)
theorem addConstant (x : RegIdx) (nn : Byte) : Statement (.addConstant x nn) := of_mask (row := ⟨9, 0xF000, 0x7000⟩) rfl (packRI_and_op ..)
theorem copyRegister (x : RegIdx) (y : RegIdx) : Statement (.copyRegister x y) := of_mask (row := ⟨10, 0xF00F, 0x8000⟩) rfl (packRRN_and_sub ..)
theorem or (x : RegIdx) (y : RegIdx) : Statement (.or x y) := of_mask (row := ⟨11, 0xF00F, 0x8001⟩) rfl (packRRN_and_sub ..)
theorem and (x : RegIdx) (y : RegIdx) : Statement (.and x y) := of_mask (row := ⟨12, 0xF00F, 0x8002⟩) rfl (packRRN_and_sub ..)
theorem xOr (x : RegIdx) (y : RegIdx) : Statement (.xOr x y) := of_mask (row := ⟨13, 0xF00F, 0x8003⟩) rfl (packRRN_and_sub ..)
theorem add (x : RegIdx) (y : RegIdx) : Statement (.add x y) := of_mask (row := ⟨14, 0xF00F, 0x8004⟩) rfl (packRRN_and_sub ..)
theorem subtractForward (x : RegIdx) (y : RegIdx) : Statement (.subtractForward x y) := of_mask (row := ⟨15, 0xF00F, 0x8005⟩) rfl (packRRN_and_sub ..)
theorem rightShift (x : RegIdx) : Statement (.rightShift x) := of_mask (row := ⟨16, 0xF00F, 0x8006⟩) rfl (packRRN_and_sub ..)
theorem subtractBackward (x : RegIdx) (y : RegIdx) : Statement (.subtractBackward x y) := of_mask (row := ⟨17, 0xF00F, 0x8007⟩) rfl (packRRN_and_sub ..)
theorem leftShift (x : RegIdx) : Statement (.leftShift x) := of_mask (row := ⟨18, 0xF00F, 0x800E⟩) rfl (packRRN_and_sub ..)
theorem skipNotEqualRegister (x : RegIdx) (y : RegIdx) : Statement (.skipNotEqualRegister x y) := of_mask (row := ⟨19, 0xF00F, 0x9000⟩) rfl (packRRN_and_sub ..)
theorem setIndex (nnn : Addr12) : Statement (.setIndex nnn) := of_mask (row := ⟨20, 0xF000, 0xA000⟩) rfl (packA_and_op ..)
theorem jumpWithOffset (nnn : Addr12) : Statement (.jumpWithOffset nnn) := of_mask (row := ⟨21, 0xF000, 0xB000⟩) rfl (packA_and_op ..)
theorem random (x : RegIdx) (nn : Byte) : Statement (.random x nn) := of_mask (row := ⟨22, 0xF000, 0xC000⟩) rfl (packRI_and_op ..)
theorem display (x : RegIdx) (y : RegIdx) (n : Nibble) : Statement (.display x y n) := of_mask (row := ⟨23, 0xF000, 0xD000⟩) rfl (packRRN_and_op ..)
theorem skipIfPressed (x : RegIdx) : Statement (.skipIfPressed x) := of_mask (row := ⟨24, 0xF0FF, 0xE09E⟩) rfl (packRI_and_function ..)
theorem skipIfNotPressed (x : RegIdx) : Statement (.skipIfNotPressed x) := of_mask (row := ⟨25, 0xF0FF, 0xE0A1⟩) rfl (packRI_and_function ..)
theorem copyDelayToRegister (x : RegIdx) : Statement (.copyDelayToRegister x) := of_mask (row := ⟨26, 0xF0FF, 0xF007⟩) rfl (packRI_and_function ..)
theorem getKey (x : RegIdx) : Statement (.getKey x) := of_mask (row := ⟨27, 0xF0FF, 0xF00A⟩) rfl (packRI_and_function ..)
theorem copyRegisterToDelay (x : RegIdx) : Statement (.copyRegisterToDelay x) := of_mask (row := ⟨28, 0xF0FF, 0xF015⟩) rfl (packRI_and_function ..)
theorem copyRegisterToSound (x : RegIdx) : Statement (.copyRegisterToSound x) := of_mask (row := ⟨29, 0xF0FF, 0xF018⟩) rfl (packRI_and_function ..)
theorem addToIndex (x : RegIdx) : Statement (.addToIndex x) := of_mask (row := ⟨30, 0xF0FF, 0xF01E⟩) rfl (packRI_and_function ..)
theorem pointChar (x : RegIdx) : Statement (.pointChar x) := of_mask (row := ⟨31, 0xF0FF, 0xF029⟩) rfl (packRI_and_function ..)
theorem toDecimal (x : RegIdx) : Statement (.toDecimal x) := of_mask (row := ⟨32, 0xF0FF, 0xF033⟩) rfl (packRI_and_function ..)
theorem storeRegisters (x : RegIdx) : Statement (.storeRegisters x) := of_mask (row := ⟨33, 0xF0FF, 0xF055⟩) rfl (packRI_and_function ..)
theorem loadRegisters (x : RegIdx) : Statement (.loadRegisters x) := of_mask (row := ⟨34, 0xF0FF, 0xF065⟩) rfl (packRI_and_function ..)
theorem unrecognized (w : Word) : Statement (.unrecognized w) := by
  intro h
  have e : opcodeMap.find? (fun r => r.number == (Instr.unrecognized w).rowNumber) = none := rfl
  rw [e]
  simpa [Instr.wellFormed, encode] using h

end EncodingRow
end Sys2Proof.Laws
end

