-- ==== Sys2Proof/Laws/Step.lean ====
section
/-! SUPPORT. What a fetch, a CPU step and a step can do, said once. -/

namespace Sys2Proof.Machine

open Sys2Proof.Config

/-! ### The fetch -/

theorem pcLegal_iff (pc : Word) : pcLegal pc = true ↔ pc.toNat % 2 = 0 ∧ 0x200 ≤ pc.toNat := by
  unfold pcLegal loadAddress
  rw [Bool.and_eq_true, beq_iff_eq, decide_eq_true_iff, BitVec.getLsbD, Nat.testBit_zero,
    decide_eq_false_iff_not]
  omega

/-- The three ends of lines 1 to 4 of R103, with the condition of each. -/
theorem fetch_cases (s : State) :
    (¬(s.pc.toNat % 2 = 0 ∧ 0x200 ≤ s.pc.toNat) ∧
      fetch s = .ended (s.stopWith (.pcInvariantFault s.pc))) ∨
    (s.pc.toNat % 2 = 0 ∧ 0x200 ≤ s.pc.toNat ∧ s.loadEnd.toNat < s.pc.toNat + 2 ∧
      fetch s = .ended { s with status := .halted }) ∨
    (s.Fetches ∧ fetch s = .fetched (s.wordAt s.pc.toNat) s.advance) := by
  unfold fetch
  by_cases hl : pcLegal s.pc = true
  · have h := (pcLegal_iff _).mp hl
    by_cases he : s.pc.toNat + 2 > s.loadEnd.toNat
    · exact .inr (.inl ⟨h.1, h.2, he, by simp [hl, he]⟩)
    · exact .inr (.inr ⟨⟨h.1, h.2, by omega⟩, by simp [hl, he]⟩)
  · exact .inl ⟨fun h => hl ((pcLegal_iff _).mpr h), by simp [hl]⟩

/-- Where the fetch check passes, a CPU step executes the decoded word (R103). -/
theorem cpuStep_fetches {s : State} (h : s.Fetches) :
    cpuStep s = exec (decodeWord (s.wordAt s.pc.toNat)) s.advance := by
  unfold cpuStep
  rcases fetch_cases s with ⟨hn, -⟩ | ⟨-, -, hn, -⟩ | ⟨-, e⟩
  · exact absurd ⟨h.1, h.2.1⟩ hn
  · exact absurd h.2.2 (by omega)
  · rw [e]

/-- The three things a CPU step can be. -/
theorem cpuStep_cases (s : State) :
    (¬(s.pc.toNat % 2 = 0 ∧ 0x200 ≤ s.pc.toNat) ∧
      cpuStep s = .next (s.stopWith (.pcInvariantFault s.pc))) ∨
    (s.pc.toNat % 2 = 0 ∧ 0x200 ≤ s.pc.toNat ∧ s.loadEnd.toNat < s.pc.toNat + 2 ∧
      cpuStep s = .next { s with status := .halted }) ∨
    (s.Fetches ∧ cpuStep s = exec (decodeWord (s.wordAt s.pc.toNat)) s.advance) := by
  rcases fetch_cases s with ⟨h, e⟩ | ⟨h1, h2, h3, e⟩ | ⟨h, -⟩
  · exact .inl ⟨h, by simp [cpuStep, e]⟩
  · exact .inr (.inl ⟨h1, h2, h3, by simp [cpuStep, e]⟩)
  · exact .inr (.inr ⟨h, cpuStep_fetches h⟩)

/-! ### Turns -/

theorem whileRunning_running {s : State} (move : State → Result) (h : s.status = .running) :
    whileRunning s move = move s := by
  simp [whileRunning, h]

/-- An agent that answers a next state moved while `Running`. -/
theorem whileRunning_next {s t : State} {move : State → Result} (h : whileRunning s move = .next t) :
    s.status = .running ∧ move s = .next t := by
  unfold whileRunning at h
  split at h <;> first | exact ⟨‹_›, h⟩ | cases h

/-- A load that answers a next state was in `Unloaded`. -/
theorem hostLoad_next {s t : State} {program : List Byte} (h : hostLoad s program = .next t) :
    s.status = .unloaded ∧ t = s.loadProgram program := by
  unfold hostLoad at h
  split at h
  · exact ⟨‹_›, by injection h with h; exact h.symm⟩
  all_goals cases h

/-- A step takes the head of the schedule, the CPU's move if there is none. -/
theorem step_cpu {s : State} {rest : List Event} (h : s.CpuMoves rest) :
    step s = whileRunning { s with schedule := rest } cpuStep := by
  rcases h with h | ⟨h, rfl⟩
  · simp [step, h, runEvent]
  · have : { s with schedule := [] } = s := by cases s; simp_all
    simp [step, h, runEvent, this]

theorem step_event {s : State} {e : Event} {rest : List Event} (h : s.schedule = e :: rest) :
    step s = runEvent e { s with schedule := rest } := by
  simp [step, h]

/-- Every step is the move of one event on the state with the schedule after it. -/
theorem step_is_move (s : State) : ∃ e rest, step s = runEvent e { s with schedule := rest } := by
  cases h : s.schedule with
  | nil =>
    refine ⟨.cpu, [], ?_⟩
    have : { s with schedule := [] } = s := by cases s; simp_all
    simp [step, h, this]
  | cons e rest => exact ⟨e, rest, step_event h⟩

/-- The moves that answer a next state, one by one. -/
theorem runEvent_next {e : Event} {s t : State} (h : runEvent e s = .next t) :
    (e = .cpu ∧ s.status = .running ∧ cpuStep s = .next t) ∨
    (e = .tickDelay ∧ s.status = .running ∧ t = s.tickDelay) ∨
    (e = .tickSound ∧ s.status = .running ∧ t = s.tickSound) ∨
    (e = .refresh ∧ s.status = .running ∧ t = s.refresh) ∨
    (∃ program, e = .load program ∧ s.status = .unloaded ∧ t = s.loadProgram program) ∨
    (e = .reset ∧ t = s.hostReset) := by
  cases e with
  | cpu => exact .inl ⟨rfl, whileRunning_next h⟩
  | tickDelay =>
    obtain ⟨hr, h⟩ := whileRunning_next (move := fun s => .next s.tickDelay) h
    exact .inr (.inl ⟨rfl, hr, by injection h with h; exact h.symm⟩)
  | tickSound =>
    obtain ⟨hr, h⟩ := whileRunning_next (move := fun s => .next s.tickSound) h
    exact .inr (.inr (.inl ⟨rfl, hr, by injection h with h; exact h.symm⟩))
  | refresh =>
    obtain ⟨hr, h⟩ := whileRunning_next (move := fun s => .next s.refresh) h
    exact .inr (.inr (.inr (.inl ⟨rfl, hr, by injection h with h; exact h.symm⟩)))
  | load program => exact .inr (.inr (.inr (.inr (.inl ⟨program, rfl, hostLoad_next h⟩))))
  | reset => exact .inr (.inr (.inr (.inr (.inr ⟨rfl, by injection h with h; exact h.symm⟩))))

/-! ### Words in memory -/

/-- A word stored in two bytes reads back big-endian (R64). -/
theorem wordAt_write {s : State} {m : Memory} {a : Nat} {w : Word}
    (h : s.mem = (m.write a (bytesOfWord w).1).write (a + 1) (bytesOfWord w).2) : s.wordAt a = w := by
  have e1 : s.mem.read a = (bytesOfWord w).1 := by
    rw [h, Memory.read_write_of_ne _ _ (by omega), Memory.read_write_same]
  have e2 : s.mem.read (a + 1) = (bytesOfWord w).2 := by rw [h, Memory.read_write_same]
  rw [State.wordAt, e1, e2, wordOfBytes_bytesOfWord]

/-- The address `withFetchWord` uses can be fetched at. -/
theorem fetchAddress_spec (s : State) :
    s.fetchAddress.toNat % 2 = 0 ∧ 0x200 ≤ s.fetchAddress.toNat ∧ s.fetchAddress.toNat + 2 ≤ 4096 := by
  unfold State.fetchAddress
  split
  · next h =>
    unfold pcFetchable memorySize at h
    rw [Bool.and_eq_true, pcLegal_iff, decide_eq_true_iff] at h
    exact ⟨h.1.1, h.1.2, h.2⟩
  · decide

end Sys2Proof.Machine
end

