-- ==== Sys2Proof/Tests/Slice0.lean ====
section
/-! SUPPORT. The model's own tests. The expected results are the spec's (95_test_vectors.md, named by
their ids S1 to S15, A1 to A55, M1 to M26, C1 to C16, K1 to K17, T1 to T11, DR1 to DR12, or the rule's
own example); the last part shows, for every obligation with hypotheses, a state that meets them. -/

namespace Sys2Proof.Tests

open Sys2Proof.Machine

/-! ### Helpers -/

/-- A running core at 0x200 with `loadEnd = 0x20C`, as the vectors of 2.4 have it. -/
def launched : State := { State.reset with status := .running, loadEnd := 0x20C }

/-- The launched core with some registers set. -/
def withRegs (l : List (RegIdx × Byte)) : State := l.foldl (fun s p => s.setReg p.1 p.2) launched

/-- One whole step on the word put where the step fetches next, and what holds of the next state. -/
def stepOn (w : Nat) (s : State) (p : State → Bool) : Bool :=
  match step (s.withFetchWord 16 w) with
  | .next t => p t
  | .fault _ => false
  | .refused _ => false

/-- One step on the state as it is. -/
def stepTo (s : State) (p : State → Bool) : Bool :=
  match step s with
  | .next t => p t
  | .fault _ => false
  | .refused _ => false

/-! ### Well-formedness -/

theorem test_wellFormed_refuses_a_defined_word_as_unrecognized :
    (Instr.unrecognized 0x00E0).wellFormed = false := by decide

theorem test_wellFormed_takes_an_undefined_word :
    (Instr.unrecognized 0x5121).wellFormed = true := by decide

/-! ### Decoding: words written out from 30_encoding.md R94 to R100 (vectors 2.1) -/

theorem test_fields_S6 : field 0x4CEE 1 1 = 0x4#4 ∧ field 0x4CEE 2 1 = 0xC#4 ∧
    field 0x4CEE 3 1 = 0xE#4 ∧ field 0x4CEE 1 2 = 0x4C#8 ∧ field 0x4CEE 2 2 = 0xCE#8 ∧
    field 0x4CEE 4 1 = 0xE#4 ∧ field 0x4CEE 3 2 = 0xEE#8 ∧ field 0x4CEE 2 3 = 0xCEE#12 := by decide

theorem test_decode_families_0_to_4 : decodeWord 0x00E0 = .clearScreen ∧
    decodeWord 0x00EE = .popSubroutine ∧ decodeWord 0x1ABC = .jump 0xABC ∧
    decodeWord 0x2345 = .pushSubroutine 0x345 ∧ decodeWord 0x3A42 = .skipEqualConstant 0xA 0x42 ∧
    decodeWord 0x4B10 = .skipNotEqualConstant 0xB 0x10 := by decide

theorem test_decode_families_5_to_7_and_9 : decodeWord 0x5120 = .skipEqualRegister 1 2 ∧
    decodeWord 0x6A07 = .setRegister 0xA 0x07 ∧ decodeWord 0x7105 = .addConstant 1 0x05 ∧
    decodeWord 0x9120 = .skipNotEqualRegister 1 2 := by decide

theorem test_decode_family_8 : decodeWord 0x8120 = .copyRegister 1 2 ∧ decodeWord 0x8121 = .or 1 2 ∧
    decodeWord 0x8122 = .and 1 2 ∧ decodeWord 0x8123 = .xOr 1 2 ∧ decodeWord 0x8014 = .add 0 1 ∧
    decodeWord 0x8125 = .subtractForward 1 2 ∧ decodeWord 0x8126 = .rightShift 1 ∧
    decodeWord 0x81F6 = .rightShift 1 ∧ decodeWord 0x8127 = .subtractBackward 1 2 ∧
    decodeWord 0x812E = .leftShift 1 := by decide

theorem test_decode_families_A_to_E : decodeWord 0xA300 = .setIndex 0x300 ∧
    decodeWord 0xB300 = .jumpWithOffset 0x300 ∧ decodeWord 0xC30F = .random 3 0x0F ∧
    decodeWord 0xD125 = .display 1 2 5 ∧ decodeWord 0xD120 = .display 1 2 0 ∧
    decodeWord 0xE39E = .skipIfPressed 3 ∧ decodeWord 0xE3A1 = .skipIfNotPressed 3 := by decide

theorem test_decode_family_F : decodeWord 0xF107 = .copyDelayToRegister 1 ∧
    decodeWord 0xF50A = .getKey 5 ∧ decodeWord 0xF015 = .copyRegisterToDelay 0 ∧
    decodeWord 0xF218 = .copyRegisterToSound 2 ∧ decodeWord 0xF21E = .addToIndex 2 ∧
    decodeWord 0xF029 = .pointChar 0 ∧ decodeWord 0xF033 = .toDecimal 0 ∧
    decodeWord 0xF255 = .storeRegisters 2 ∧ decodeWord 0xF265 = .loadRegisters 2 := by decide

theorem test_decode_unrecognized : [0x00E1, 0x0000, 0x0123, 0x5121, 0x8128, 0x812F, 0x9125, 0xE39F,
    0xF075, 0xF000, 0xFFFF].all (fun w => decodeWord w == .unrecognized w) = true := by decide

theorem test_decode_bytes : decodeBytes [0x6A, 0x07, 0xFF] = .ok (.setRegister 0xA 0x07, [0xFF]) ∧
    decodeBytes [0x6A] = .error .truncated ∧ decodeBytes [] = .error .truncated ∧
    decodeTableWord 16 0x6A07 = some (.setRegister 0xA 0x07) := ⟨rfl, rfl, rfl, by decide⟩

/-- R100: "the rows other than the last are mutually exclusive". -/
theorem test_opcode_rows_are_exclusive :
    opcodeMap.Pairwise (fun r q => r.pattern &&& q.mask ≠ q.pattern &&& r.mask) := by decide

/-- R104: the encoder puts Y = 0 for the shifts. -/
theorem test_encode : encode (.rightShift 1) = 0x8106 ∧ encode (.leftShift 1) = 0x810E ∧
    encode (.display 1 2 5) = 0xD125 ∧ encode (.unrecognized 0x5121) = 0x5121 := by decide

/-- How R104 writes an instruction and a data word, and a program image. -/
theorem test_assembly : (Instr.display 1 2 5).assembly = "Display(0x1, 0x2, 0x5)" ∧
    (Instr.unrecognized 0x00FF).assembly = "Raw(0x00FF)" ∧
    programImage [.setRegister 0xA 0x07, .popSubroutine] = [0x6A, 0x07, 0x00, 0xEE] := by decide

/-! ### Register and ALU instructions (vectors 2.2) -/

theorem test_setRegister_A1 : stepOn 0x6A07 launched (fun t => t.reg 0xA == 0x07 && t.pc == 0x202) = true := by
  decide
theorem test_addConstant_A3 : stepOn 0x7105 (withRegs [(1, 0xFE)])
    (fun t => t.reg 1 == 0x03 && t.reg vf == 0) = true := by decide
theorem test_addConstant_A6 : stepOn 0x7F01 (withRegs [(0xF, 0xFF)]) (fun t => t.reg vf == 0) = true := by
  decide
theorem test_copyRegister_A7 : stepOn 0x8EF0 (withRegs [(0xF, 0x01), (0xE, 0x99)])
    (fun t => t.reg 0xE == 0x01 && t.reg vf == 0x01) = true := by decide
theorem test_or_A9 : stepOn 0x8121 (withRegs [(1, 0xF0), (2, 0x0F), (0xF, 0x5A)])
    (fun t => t.reg 1 == 0xFF && t.reg vf == 0x5A) = true := by decide
theorem test_and_A10 : stepOn 0x8122 (withRegs [(1, 0xF0), (2, 0x3C), (0xF, 0x5A)])
    (fun t => t.reg 1 == 0x30 && t.reg vf == 0x5A) = true := by decide
theorem test_xOr_A11 : stepOn 0x8123 (withRegs [(1, 0xF0), (2, 0x3C), (0xF, 0x5A)])
    (fun t => t.reg 1 == 0xCC && t.reg vf == 0x5A) = true := by decide
theorem test_add_A18 : stepOn 0x8014 (withRegs [(0, 0xFF), (1, 0x00), (0xF, 0x5A)])
    (fun t => t.reg 0 == 0xFF && t.reg vf == 0x00) = true := by decide
theorem test_add_A20 : stepOn 0x8F14 (withRegs [(0xF, 0xFF), (1, 0x01)]) (fun t => t.reg vf == 0x01) = true := by
  decide
theorem test_subtractForward_A25 : stepOn 0x8015 (withRegs [(0, 0x01), (1, 0x02), (0xF, 0x5A)])
    (fun t => t.reg 0 == 0xFF && t.reg vf == 0x00) = true := by decide
theorem test_subtractForward_A27 : stepOn 0x8015 (withRegs [(0, 0x07), (1, 0x07)])
    (fun t => t.reg 0 == 0x00 && t.reg vf == 0x01) = true := by decide
theorem test_rightShift_A43 : stepOn 0x8126 (withRegs [(1, 0x04), (2, 0xFF), (0xF, 0x5A)])
    (fun t => t.reg 1 == 0x02 && t.reg 2 == 0xFF && t.reg vf == 0x00) = true := by decide
theorem test_rightShift_A44 : stepOn 0x8F06 (withRegs [(0xF, 0x03)]) (fun t => t.reg vf == 0x01) = true := by
  decide
theorem test_subtractBackward_A35 : stepOn 0x8017 (withRegs [(0, 0x02), (1, 0x05)])
    (fun t => t.reg 0 == 0x03 && t.reg vf == 0x01) = true := by decide
theorem test_leftShift_A46 : stepOn 0x810E (withRegs [(1, 0x81)])
    (fun t => t.reg 1 == 0x02 && t.reg vf == 0x01) = true := by decide
theorem test_leftShift_A52 : stepOn 0x8F0E (withRegs [(0xF, 0x40)]) (fun t => t.reg vf == 0x00) = true := by
  decide
theorem test_random_A54 : stepOn 0xC30F { launched with randomAnswers := [0xA7] }
    (fun t => t.reg 3 == 0x07 && t.randomAnswers == []) = true := by decide

/-! ### Index and memory instructions (vectors 2.3) -/

theorem test_setIndex_M2 : stepOn 0xAFFF launched (fun t => t.index == 0x0FFF) = true := by decide
theorem test_addToIndex_M4_off : stepOn 0xF21E { withRegs [(2, 0x01), (0xF, 0x07)] with index := 0x0FFF }
    (fun t => t.index == 0x1000 && t.reg vf == 0x07) = true := by decide
theorem test_addToIndex_M7_on : stepOn 0xFF1E
    { withRegs [(0xF, 0x02)] with index := 0x0FFE, params := { quirkAddIndexFlag := true, stackDepth := none } }
    (fun t => t.index == 0x1000 && t.reg vf == 0x01) = true := by decide
theorem test_pointChar_M10 : stepOn 0xF029 (withRegs [(0, 0x0F)]) (fun t => t.index == 0x009B) = true := by
  decide
theorem test_pointChar_M11 : stepOn 0xF029 (withRegs [(0, 0x10)])
    (fun t => t.status == .faulted (.fontDigitOutOfRange 16) && t.index == 0 && t.pc == 0x200) = true := by
  decide
theorem test_toDecimal_M17 : stepOn 0xF033 { withRegs [(0, 156)] with index := 0xFFD }
    (fun t => t.mem.readBytes 0xFFD 3 == [1, 5, 6] && t.index == 0xFFD) = true := by decide
theorem test_toDecimal_M18 : stepOn 0xF033 { withRegs [(0, 156)] with index := 0xFFE }
    (fun t => t.status == .faulted (.memoryOutOfRange 0xFFE) && t.mem.readBytes 0xFFE 2 == [0, 0]) = true := by
  decide
theorem test_storeRegisters_M19 : stepOn 0xF255
    { withRegs [(0, 0x11), (1, 0x22), (2, 0x33), (3, 0x44)] with index := 0x300 }
    (fun t => t.mem.readBytes 0x2FF 5 == [0, 0x11, 0x22, 0x33, 0] && t.index == 0x300) = true := by decide
theorem test_storeRegisters_M21 : stepOn 0xF155 { withRegs [(0, 0xAB)] with index := 0xFFF }
    (fun t => t.status == .faulted (.memoryOutOfRange 0xFFF) && t.mem.read 0xFFF == 0) = true := by decide
theorem test_loadRegisters_M24 : stepOn 0xF265
    { withRegs [(3, 0x77)] with index := 0x300, mem := [(0x300, 1), (0x301, 5), (0x302, 6)] }
    (fun t => t.reg 0 == 1 && t.reg 1 == 5 && t.reg 2 == 6 && t.reg 3 == 0x77 && t.index == 0x300) = true := by
  decide
theorem test_loadRegisters_M25 : stepOn 0xFF65 { launched with index := 0x50 }
    (fun t => t.regs.toList == [0xF0, 0x90, 0x90, 0x90, 0xF0, 0x20, 0x60, 0x20, 0x20, 0x70, 0xF0, 0x10,
      0xF0, 0x80, 0xF0, 0xF0]) = true := by decide

/-- A write of the background's byte takes the entry away, so that equal memories are equal data. -/
theorem test_memory_is_canonical : Memory.write [(0x300, 7)] 0x300 0 = [] ∧
    Memory.write [] 0x50 0xF0 = [] ∧ Memory.write [(0x300, 7)] 0x200 1 = [(0x200, 1), (0x300, 7)] := by
  decide

/-! ### Control flow (vectors 2.4) -/

theorem test_jump_C2 : stepOn 0x1201 launched (fun t => t.pc == 0x201 &&
    stepTo t (fun u => u.status == .faulted (.pcInvariantFault 0x201) && u.pc == 0x201)) = true := by decide
theorem test_pushSubroutine_C7 : stepOn 0x220A { launched with pc := 0x202 }
    (fun t => t.stack == [0x204] && t.pc == 0x20A) = true := by decide
theorem test_pushSubroutine_C10 : stepOn 0x2200
    { launched with stack := [0x202, 0x202], params := { quirkAddIndexFlag := false, stackDepth := some 2 } }
    (fun t => t.status == .faulted (.stackOverflow 2) && t.stack == [0x202, 0x202] && t.pc == 0x200) = true := by
  decide
theorem test_popSubroutine_C8 : stepOn 0x00EE { launched with pc := 0x20A, stack := [0x208, 0x204] }
    (fun t => t.stack == [0x208] && t.pc == 0x204) = true := by decide
theorem test_popSubroutine_C9 : stepOn 0x00EE launched
    (fun t => t.status == .faulted .stackUnderflow && t.pc == 0x200) = true := by decide
theorem test_jumpWithOffset_C12 : stepOn 0xBFFF (withRegs [(0, 0xFF), (0xF, 0x11)])
    (fun t => t.pc == 0x10FE && stepTo t (fun u => u.status == .halted && u.pc == 0x10FE)) = true := by decide
theorem test_unrecognized_C15 : stepOn 0x0123 launched
    (fun t => decide (t = { launched.withFetchWord 16 0x0123 with pc := 0x202, schedule := [] })) = true := by
  decide
theorem test_halts_C5 : stepTo { launched with pc := 0x20A } (fun t => t.status == .running) = true := by decide
theorem test_halts_C16 : stepTo { launched with pc := 0x20A, loadEnd := 0x20B }
    (fun t => t.status == .halted && t.pc == 0x20A) = true := by decide

/-! ### Skips (vectors 2.5) -/

theorem test_skipEqualConstant_K1 : stepOn 0x3A42 (withRegs [(0xA, 0x42)]) (fun t => t.pc == 0x204) = true := by
  decide
theorem test_skipNotEqualConstant_K3 : stepOn 0x4A42 (withRegs [(0xA, 0x42)])
    (fun t => t.pc == 0x202) = true := by decide
theorem test_skipEqualRegister_K6 : stepOn 0x5120 (withRegs [(1, 0x33), (2, 0x34)])
    (fun t => t.pc == 0x202) = true := by decide
theorem test_skipNotEqualRegister_K8 : stepOn 0x9120 (withRegs [(1, 0x01), (2, 0x02)])
    (fun t => t.pc == 0x204) = true := by decide
theorem test_skipIfPressed_K11 : stepOn 0xE39E { withRegs [(3, 0x0A)] with keypadAnswers := [0x0400] }
    (fun t => t.pc == 0x204 && t.keypadAnswers == []) = true := by decide
theorem test_skipIfPressed_K15 : stepOn 0xE39E { withRegs [(3, 0x10)] with keypadAnswers := [0x0400] }
    (fun t => t.status == .faulted (.keyIndexOutOfRange 16) && t.pc == 0x200 && t.keypadAnswers == [0x0400])
    = true := by decide
theorem test_skipIfNotPressed_K13 : stepOn 0xE3A1 { withRegs [(3, 0x0A)] with keypadAnswers := [0x0400] }
    (fun t => t.pc == 0x202) = true := by decide
theorem test_skipIfNotPressed_K14 : stepOn 0xE3A1 { withRegs [(3, 0x0A)] with keypadAnswers := [0x0000] }
    (fun t => t.pc == 0x204) = true := by decide

/-! ### Timers, keys and the other agents (vectors 2.6) -/

theorem test_copyRegisterToDelay_T1 : stepOn 0xF015 (withRegs [(0, 0x03)])
    (fun t => t.dt == 0x03 && t.st == 0) = true := by decide
theorem test_copyDelayToRegister_T2 : stepOn 0xF107 { launched with dt := 0x2A }
    (fun t => t.reg 1 == 0x2A && t.dt == 0x2A) = true := by decide
theorem test_copyRegisterToSound_T3 : stepOn 0xF218 (withRegs [(2, 0x1E)])
    (fun t => t.st == 0x1E && t.tone && t.dt == 0) = true := by decide
theorem test_getKey_T9 : stepOn 0xF50A { withRegs [(5, 0x99)] with keypadAnswers := [0] }
    (fun t => t.pc == 0x200 && t.reg 5 == 0x99) = true := by decide
theorem test_getKey_T11 : stepOn 0xF50A { launched with keypadAnswers := [0x8001], keyChoices := [0xF] }
    (fun t => t.pc == 0x202 && t.reg 5 == 0x0F) = true ∧
    stepOn 0xF50A { launched with keypadAnswers := [0x8001], keyChoices := [0x0] }
    (fun t => t.pc == 0x202 && t.reg 5 == 0x00) = true := by decide
theorem test_tickDelay_T7 : stepTo { launched with dt := 0xFF, st := 0x09, schedule := [.tickDelay] }
    (fun t => t.dt == 0xFE && t.st == 0x09) = true := by decide
theorem test_tickSound_T5_T6 : stepTo { launched with st := 1, schedule := [.tickSound, .tickSound] }
    (fun t => t.st == 0 && !t.tone && stepTo t (fun u => u.st == 0)) = true := by decide

/-! ### Display (vectors 2.7) -/

/-- The rows that are not blank, with their number from the top. -/
def litRows (fb : Framebuffer) : List (Nat × BitVec 64) :=
  (List.range 32).filterMap fun row => if fb.toList.getD row 0 = 0 then none else some (row, fb.toList.getD row 0)

/-- The glyph "0" at (0, 0): columns 0 to 3, then 0 and 3. -/
theorem test_display_DR1 : stepOn 0xD015 { launched with index := 0x50 }
    (fun t => litRows t.fb == [(0, 0xF), (1, 0x9), (2, 0x9), (3, 0x9), (4, 0xF)] && t.reg vf == 0) = true := by
  decide
/-- Columns 62 and 63 on row 30 and column 62 on row 31; the rest is clipped (R181's example). -/
theorem test_display_P3 : stepOn 0xD125 { withRegs [(1, 62), (2, 30)] with index := 0x69 }
    (fun t => litRows t.fb == [(30, 0xC000000000000000), (31, 0x4000000000000000)] && t.reg vf == 0) = true := by
  decide
theorem test_clearScreen_DR12 : stepOn 0x00E0
    { withRegs [(0xF, 1)] with fb := Framebuffer.clear.toggle 5 5 }
    (fun t => litRows t.fb == [] && t.reg vf == 1) = true := by decide

/-! ### Load and reset (70_reset_and_hazards.md R220 to R223) -/

theorem test_load_then_run : stepTo { State.reset with schedule := [.load [0x6A, 0x07]] }
    (fun t => t.status == .running && t.pc == 0x200 && t.loadEnd == 0x202 && t.mem == [(0x200, 0x6A), (0x201, 7)] &&
      stepTo t (fun u => u.reg 0xA == 7 && stepTo u (fun v => v.status == .halted))) = true := by decide
theorem test_step_waits_for_a_load : step State.reset = .fault .awaitingLoad := rfl

/-! ### Witnesses: the hypotheses of each obligation met together -/

/-- A state at the address after a fetch at 0x200, for the statements about `exec`. -/
def fetched : State := { launched with pc := 0x202 }

theorem witness_RandomMasksAFreeByte :
    { fetched with randomAnswers := [0xA7] }.randomAnswers = 0xA7 :: ([] : List Byte) := rfl
theorem witness_AddToIndex_off : fetched.params.quirkAddIndexFlag = false := rfl
theorem witness_AddToIndex_on :
    { fetched with params := { quirkAddIndexFlag := true, stackDepth := none } }.params.quirkAddIndexFlag
      = true := rfl
theorem witness_PointCharAddressesTheGlyph :
    let s := { withRegs [(0, 15)] with mem := [(0x4F, 1), (0xA0, 1), (0x200, 0xF0), (0x201, 0x29)] }
    (s.reg 0).toNat ≤ 15 ∧ ∀ c ∈ s.mem, c.1 < 0x50 ∨ 0xA0 ≤ c.1 :=
  ⟨by decide, by simp⟩
theorem witness_OperandsAboveFifteenRaise : 15 < ((withRegs [(0, 16)]).reg 0).toNat := by decide
theorem witness_ToDecimalStoresThreeDigits :
    { fetched with index := 0xFFD }.elementAddress 2 ≤ 4095 := by decide
/-- The block statements: the store, the load, and the first of the two in a row. -/
theorem witness_block_transfers :
    { fetched with index := 0xFF0 }.elementAddress (0xF#4 : RegIdx).toNat ≤ 4095 := by decide
/-- The state the load of the two in a row starts from, its registers cleared. -/
theorem witness_StoreThenLoadRestoresTheRegisters :
    ∃ t u, exec (.storeRegisters 0xF) { withRegs [(0xF, 0x5A)] with index := 0xFF0 } = .next t ∧
      u = { t with regs := Vector.replicate 16 0 } ∧ u.mem = t.mem ∧ u.index = t.index ∧
      u.reg 0xF ≠ t.reg 0xF := ⟨_, _, rfl, rfl, rfl, rfl, by decide⟩
theorem witness_RangesBeyondMemoryRaise :
    4095 < { fetched with index := 0xFFE }.elementAddress 2 ∧
    4095 < { fetched with index := 0xFF1 }.elementAddress (0xF#4 : RegIdx).toNat ∧
    0 < (5#4 : Nibble).toNat ∧ 4095 < { fetched with index := 0xFFC }.elementAddress ((5#4 : Nibble).toNat - 1) := by
  decide
theorem witness_PushSubroutine_and_ReturnResumes :
    fetched.params.stackDepth ≠ some fetched.stack.length := by decide
theorem witness_PushSubroutine_full :
    let s := { fetched with stack := [0x202], params := { quirkAddIndexFlag := false, stackDepth := some 1 } }
    s.params.stackDepth = some s.stack.length := by decide
theorem witness_PopSubroutine : { fetched with stack := [0x204] }.stack = [] ++ [0x204] ∧ fetched.stack = [] := by
  decide
theorem witness_UnrecognizedWordsDoNothing :
    let s := { launched with mem := [(0x200, 0x01), (0x201, 0x23)] }
    isDefinedWord 0x0123 = false ∧ s.status = .running ∧ s.CpuMoves [] ∧ s.Fetches ∧
      wordOfBytes (s.mem.read s.pc.toNat) (s.mem.read (s.pc.toNat + 1)) = 0x0123 :=
  ⟨by decide, rfl, .inr ⟨rfl, rfl⟩, ⟨by decide, by decide, by decide⟩, by decide⟩
theorem witness_ComparisonsSkipOneInstruction :
    (withRegs [(1, 7)]).reg 1 = 7 ∧ (withRegs [(1, 7)]).reg 1 ≠ 8 ∧
    (withRegs [(1, 7), (2, 7)]).reg 1 = (withRegs [(1, 7), (2, 7)]).reg 2 ∧
    (withRegs [(1, 7)]).reg 1 ≠ (withRegs [(1, 7)]).reg 2 := by decide
theorem witness_KeySkipsTestTheSampledLevel :
    let s := { withRegs [(0, 15)] with keypadAnswers := [0x8000] }
    (s.reg 0).toNat ≤ 15 ∧ s.keypadAnswers = [0x8000] ∧
      (0x8000 : BitVec 16).getLsbD (s.reg 0).toNat = true ∧
      (0x7FFF : BitVec 16).getLsbD (s.reg 0).toNat = false := by decide
theorem witness_GetKeyWaitsOnNoKeyAndMayTakeAnyPressedOne :
    { fetched with keypadAnswers := [0] }.keypadAnswers = [0] ∧
    { fetched with keypadAnswers := [0x8001] }.keypadAnswers = [0x8001] ∧
    (0x8001 : BitVec 16).getLsbD (0#4 : Nibble).toNat = true ∧
    (0x8001 : BitVec 16).getLsbD (15#4 : Nibble).toNat = true := by decide
theorem witness_DisplayXorsTheClippedSprite :
    (5#4 : Nibble).toNat = 0 ∨ { fetched with index := 0xFFB }.elementAddress ((5#4 : Nibble).toNat - 1) ≤ 4095 := by
  decide
theorem witness_Display_without_rows :
    (0#4 : Nibble).toNat = 0 ∨ { fetched with index := 0xFFFF }.elementAddress ((0#4 : Nibble).toNat - 1) ≤ 4095 := by
  decide

/-- The state the double-draw law starts from, and the state after the first draw. -/
def drawFrom : State := { fetched with index := 0x50 }
def drawn : State := { drawFrom with fb := (drawFrom.drawSprite 0 1 5).fb }

theorem witness_DoubleDrawRestoresTheFramebuffer :
    exec (.display 0 1 5) drawFrom = .next (drawn.setFlag (drawFrom.drawSprite 0 1 5).collision) ∧
    drawn.status = drawFrom.status ∧ drawFrom.FaultFree ∧
    drawn.fb = (drawn.setFlag (drawFrom.drawSprite 0 1 5).collision).fb ∧
    drawn.index = drawFrom.index ∧ drawn.mem = drawFrom.mem ∧ drawn.regs = drawFrom.regs ∧
    ∃ u, exec (.display 0 1 5) drawn = .next u :=
  ⟨rfl, rfl, nofun, rfl, rfl, rfl, rfl, _, rfl⟩
theorem witness_OnlyTheListedInstructionsWriteVF :
    ∃ t, exec (.add 0 1) (withRegs [(0, 0xFF), (1, 1)]) = .next t ∧
      t.reg vf ≠ (withRegs [(0, 0xFF), (1, 1)]).reg vf := ⟨_, rfl, by decide⟩
theorem witness_OnlyStoresChangeMemory :
    ∃ t, exec (.toDecimal 0) { withRegs [(0, 7)] with index := 0x300 } = .next t ∧ t.mem ≠ [] :=
  ⟨_, rfl, by decide⟩
theorem witness_OnlyTransfersChangeThePc :
    ∃ t, exec (.getKey 0) { fetched with keypadAnswers := [0] } = .next t ∧ fetched.FaultFree ∧
      t.pc ≠ fetched.pc := ⟨_, rfl, nofun, by decide⟩
theorem witness_EachUnitHasItsOwnWriters :
    ∃ t u v, exec (.setIndex 0x300) fetched = .next t ∧ t.index ≠ fetched.index ∧
      exec (.pushSubroutine 0x300) fetched = .next u ∧ u.stack ≠ fetched.stack ∧
      exec (.copyRegisterToDelay 0) (withRegs [(0, 3)]) = .next v ∧ v.dt ≠ 0 :=
  ⟨_, _, _, rfl, by decide, rfl, by decide, rfl, by decide⟩
theorem witness_EachUnit_sound_and_framebuffer :
    ∃ t u, exec (.copyRegisterToSound 0) (withRegs [(0, 3)]) = .next t ∧ t.st ≠ 0 ∧
      exec (.display 0 1 1) drawFrom = .next u ∧ u.fb ≠ drawFrom.fb :=
  ⟨_, _, rfl, by decide, rfl, by decide⟩
theorem witness_FaultsComeFromTheirInstructions :
    ∃ t, exec .popSubroutine fetched = .next t ∧ fetched.FaultFree ∧ t.status = .faulted .stackUnderflow :=
  ⟨_, rfl, nofun, rfl⟩
theorem witness_FaultingStepsChangeOnlyTheStatus :
    ∃ t, step { launched with pc := 0x201 } = .next t ∧ t.status = .faulted (.pcInvariantFault 0x201) :=
  ⟨_, rfl, rfl⟩
theorem witness_OnlyAResetLeavesAnEndedRun :
    { launched with status := .halted, schedule := [.reset] }.RunOver ∧
      ∃ t, step { launched with status := .halted, schedule := [.reset] } = .next t := ⟨.inl rfl, _, rfl⟩
theorem witness_StepRunsTheDecodedInstruction :
    let s := { launched with mem := [(0x20A, 0x6A), (0x20B, 0x07)], pc := 0x20A, schedule := [.cpu] }
    s.status = .running ∧ s.CpuMoves [] ∧ s.Fetches ∧
      decodeBytes [s.mem.read s.pc.toNat, s.mem.read (s.pc.toNat + 1)] = .ok (.setRegister 0xA 7, []) :=
  ⟨rfl, .inl rfl, ⟨by decide, by decide, by decide⟩, rfl⟩
theorem witness_FetchCheckComesBeforeTheFetch :
    launched.status = .running ∧ launched.CpuMoves [] ∧ (0x201 : Word).toNat % 2 = 1 ∧
    (0x1FE : Word).toNat < 0x200 ∧ (0x20A : Word).toNat % 2 = 0 ∧
    (0x20B : BitVec 13).toNat < (0x20A : Word).toNat + 2 :=
  ⟨rfl, .inr ⟨rfl, rfl⟩, by decide, by decide, by decide, by decide⟩
theorem witness_HaltedIsReachedOnlyAtTheLoadEnd :
    ∃ t, step { launched with pc := 0x20C } = .next t ∧ t.status = .halted := ⟨_, rfl, rfl⟩
theorem witness_StoredCodeIsFetchedNext :
    let s := { withRegs [(0, 0x62), (1, 0x07)] with index := 0x202, pc := 0x202 }
    s.elementAddress (1#4 : RegIdx).toNat ≤ 4095 ∧ 1 ≤ (1#4 : RegIdx).toNat ∧
      ∃ t, exec (.storeRegisters 1) s = .next t ∧ t.status = .running ∧ t.CpuMoves [] ∧ t.Fetches ∧
        t.pc = s.index :=
  ⟨by decide, by decide, _, rfl, rfl, .inr ⟨rfl, rfl⟩, ⟨by decide, by decide, by decide⟩, rfl⟩
theorem witness_ticks_and_refresh :
    launched.status = .running ∧
    { launched with schedule := [.tickDelay] }.schedule = .tickDelay :: [] ∧
    { launched with schedule := [.tickSound] }.schedule = .tickSound :: [] ∧
    { launched with schedule := [.refresh] }.schedule = .refresh :: [] := by decide
theorem witness_TimerReachesZeroAndStays :
    { launched with dt := 5, schedule := List.replicate 7 .tickDelay }.schedule =
      List.replicate 7 .tickDelay ++ [] := by decide
/-- A jump to itself with the delay timer at 5, and the four agents of a run taking turns. -/
def looping : State := { launched with mem := [(0x200, 0x12)], dt := 5 }
def turns (n : Nat) : Event :=
  match n % 4 with
  | 0 => .cpu
  | 1 => .tickDelay
  | 2 => .tickSound
  | _ => .refresh

theorem looping_stays : ∀ n t, afterMoves turns looping n = .next t →
    t.mem = [(0x200, 0x12)] ∧ t.pc = 0x200 := by
  intro n
  induction n with
  | zero => intro t h; cases h; exact ⟨rfl, rfl⟩
  | succ n ih =>
    intro t h
    unfold afterMoves at h
    split at h
    · next u hu =>
      obtain ⟨hm, hp⟩ := ih u hu
      rw [step_event (s := { u with schedule := turns n :: u.schedule }) rfl] at h
      rcases runEvent_next h with ⟨-, -, h⟩ | ⟨-, -, rfl⟩ | ⟨-, -, rfl⟩ | ⟨-, -, rfl⟩ | ⟨p, e, -⟩ | ⟨e, -⟩
      · rcases cpuStep_cases u with ⟨-, e⟩ | ⟨-, -, -, e⟩ | ⟨-, e⟩
        · cases e.symm.trans h; exact ⟨hm, hp⟩
        · cases e.symm.trans h; exact ⟨hm, hp⟩
        · have hw : decodeWord (u.wordAt u.pc.toNat) = .jump 0x200 := by
            rw [State.wordAt, hm, hp]; decide
          rw [hw] at e
          cases e.symm.trans h
          exact ⟨hm, (by decide : absoluteTarget 0x200 = 0x200)⟩
      · exact ⟨hm, hp⟩
      · exact ⟨hm, hp⟩
      · exact ⟨hm, hp⟩
      · exfalso; unfold turns at e; split at e <;> cases e
      · exfalso; unfold turns at e; split at e <;> cases e
    · cases h
    · cases h

theorem witness_DelayTimerRunsOutUnderFairness :
    looping.status = .running ∧ FairMoves turns looping ∧ NeverSetsDelay turns looping := by
  refine ⟨rfl, ⟨fun n => ?_, fun n _ _ => ⟨4 * n, by omega, ?_⟩, fun n _ _ _ => ⟨4 * n + 1, by omega, ?_⟩,
    fun n _ _ _ => ⟨4 * n + 2, by omega, ?_⟩, fun n _ _ _ => ⟨4 * n + 3, by omega, ?_⟩⟩, ?_⟩
  · unfold turns; split <;> simp
  · simp [turns]
  · simp [turns]
  · simp [turns]
  · simp [turns]
  · intro n t x h _ _
    obtain ⟨hm, hp⟩ := looping_stays n t h.1
    have hw : decodeWord (t.wordAt t.pc.toNat) = .jump 0x200 := by rw [State.wordAt, hm, hp]; decide
    rw [hw]
    nofun

theorem witness_LoopIterationRunsInOrder :
    let s := { launched with mem := [(0x200, 0x6A)], schedule := loopIteration true true true ++ [] }
    s.status = .running ∧ ∃ t, step s = .next t ∧ t.status = .running := ⟨rfl, _, rfl, rfl⟩
theorem witness_AgentsChangeOnlyTheirOwnState :
    ([.cpu, .tickDelay, .tickSound, .refresh, .reset] : List Event).all
      (fun e => stepTo { launched with schedule := [e] } fun _ => true) = true ∧
    stepTo { State.reset with schedule := [.load []] } (fun _ => true) = true := by decide
theorem witness_LoadCopiesTheProgram :
    State.reset.status = .unloaded ∧ 0x200 + (List.replicate 3584 (0x60 : Byte)).length ≤ 4096 :=
  ⟨rfl, by rw [List.length_replicate]⟩
theorem witness_LoadsThatCannotBeAreRefused :
    State.reset.status = .unloaded ∧ 4096 < 0x200 + (List.replicate 3585 (0x60 : Byte)).length ∧
      launched.status ≠ .unloaded := ⟨rfl, by rw [List.length_replicate]; decide, by decide⟩
theorem witness_NothingRunsBeforeALoad :
    State.reset.status = .unloaded ∧ (∀ program rest, State.reset.schedule ≠ .load program :: rest) ∧
      ∀ rest, State.reset.schedule ≠ .reset :: rest := ⟨rfl, nofun, nofun⟩
theorem witness_ResetLeavesTheResetTable :
    { launched with schedule := [.reset] }.schedule = .reset :: [] := rfl

/-- A running core inside a subroutine. -/
def called : State := { launched with pc := 0x20A, stack := [0x202] }

theorem witness_called_Inv : called.Inv where
  memory := rfl
  loadEndRange := by decide
  pcRange := by decide
  returns := fun e he => by cases List.mem_singleton.mp he; decide
  depth := fun d h => by cases (h : none = some d)
  unloaded := fun h => by cases (h : Status.running = .unloaded)
  loadFailed := fun h => by cases (h : Status.running = .loadFailed)
  halted := fun h => by cases (h : Status.running = .halted)
  faulted := fun c h => by cases (h : Status.running = .faulted c)
theorem witness_EveryStepKeepsTheInvariant : called.Inv ∧ ∃ t, step called = .next t :=
  ⟨witness_called_Inv, _, rfl⟩
theorem witness_ReturnsNeverRaisePcInvariantFault :
    called.Inv ∧ ∃ t, exec .popSubroutine called = .next t ∧ t.FaultFree := ⟨witness_called_Inv, _, rfl, nofun⟩
theorem witness_DecodeOfEncodeIsTheInstruction :
    (Instr.display 1 2 5).wellFormed = true ∧ (Instr.unrecognized 0x8128).wellFormed = true := by decide
theorem witness_FamilyZeroNeedsAnExactMatch :
    (0x00E0 : Word).toNat < 0x1000 ∧ (0x00EE : Word).toNat < 0x1000 ∧ (0x0FFF : Word).toNat < 0x1000 ∧
      (0x0FFF : Word) ≠ 0x00E0 ∧ (0x0FFF : Word) ≠ 0x00EE := by decide

end Sys2Proof.Tests
end

section
/-! Family 0 of the decoder (30_encoding.md R93, R94). -/

namespace Sys2Proof

/-- The words of family 0 are those below 0x1000: the family is the word's top nibble. -/
theorem family_eq_zero_iff (w : Word) : family w = 0x0#4 ↔ w.toNat < 0x1000 := by
  have hfamily : (family w).toNat = w.toNat / 0x1000 := by
    have hw := w.isLt
    simp only [family, BitVec.extractLsb'_toNat, Nat.shiftRight_eq_div_pow]
    omega
  rw [← BitVec.toNat_inj, hfamily]
  exact Nat.div_eq_zero_iff_lt (by decide)

theorem decodeWord_of_family_zero {w : Word} (h : family w = 0x0#4) :
    decodeWord w = decodeFamily0 w := by
  simp only [decodeWord, h]

theorem decodeFamily0_of_ne {w : Word} (hclear : w ≠ 0x00E0) (hreturn : w ≠ 0x00EE) :
    decodeFamily0 w = .unrecognized w :=
  (if_neg hclear).trans (if_neg hreturn)

/-- Settles O59: a word below 0x1000 is in family 0, whose decoder compares the whole word with its two
defined words. -/
theorem familyZeroNeedsAnExactMatch : Obligations.FamilyZeroNeedsAnExactMatch := by
  intro w hw
  rw [decodeWord_of_family_zero ((family_eq_zero_iff w).mpr hw)]
  refine ⟨?clear, ?ret, decodeFamily0_of_ne⟩
  case clear => rintro rfl; rfl
  case ret => rintro rfl; rfl

end Sys2Proof
end

section
/-! Register instructions that write one register (40_register_alu.md R120, R122 to R125). -/

namespace Sys2Proof.Machine

theorem regsKeptBut_setReg (s : State) (x : RegIdx) (v : Byte) :
    RegsKeptBut [x] s (s.setReg x v) :=
  fun _ hr => State.reg_setReg_of_ne s v (List.ne_of_not_mem_cons hr)

/-- What a single register write does, for every instruction that is one. -/
theorem writesOnly_of_exec_eq_setReg {i : Instr} {s : State} {x : RegIdx} {v : Byte}
    (h : exec i s = .next (s.setReg x v)) : WritesOnly i s x v :=
  ⟨s.setReg x v, h, rfl, State.reg_setReg_same s x v, regsKeptBut_setReg s x v⟩

theorem exec_setRegister (x : RegIdx) (nn : Byte) (s : State) :
    exec (.setRegister x nn) s = .next (s.setReg x nn) := rfl

theorem exec_copyRegister (x y : RegIdx) (s : State) :
    exec (.copyRegister x y) s = .next (s.setReg x (s.reg y)) := rfl

theorem exec_or (x y : RegIdx) (s : State) :
    exec (.or x y) s = .next (s.setReg x (s.reg x ||| s.reg y)) := rfl

theorem exec_and (x y : RegIdx) (s : State) :
    exec (.and x y) s = .next (s.setReg x (s.reg x &&& s.reg y)) := rfl

theorem exec_xOr (x y : RegIdx) (s : State) :
    exec (.xOr x y) s = .next (s.setReg x (s.reg x ^^^ s.reg y)) := rfl

/-- Settles O1: `SetRegister` is one register write. -/
theorem setRegisterWritesItsImmediate : Obligations.SetRegisterWritesItsImmediate :=
  fun x nn s => writesOnly_of_exec_eq_setReg (exec_setRegister x nn s)

/-- Settles O3: each of the four is one register write, of the old `x[Y]` or of the bit vectors'
bitwise operation on the old values. -/
theorem copyAndLogicWriteTheDestinationAlone : Obligations.CopyAndLogicWriteTheDestinationAlone := by
  intro x y s
  refine ⟨?copy, ⟨s.reg x ||| s.reg y, ?or, ?orBits⟩, ⟨s.reg x &&& s.reg y, ?and, ?andBits⟩,
    ⟨s.reg x ^^^ s.reg y, ?xOr, ?xOrBits⟩⟩
  case copy => exact writesOnly_of_exec_eq_setReg (exec_copyRegister x y s)
  case or => exact writesOnly_of_exec_eq_setReg (exec_or x y s)
  case orBits => exact fun _ => BitVec.getLsbD_or
  case and => exact writesOnly_of_exec_eq_setReg (exec_and x y s)
  case andBits => exact fun _ => BitVec.getLsbD_and
  case xOr => exact writesOnly_of_exec_eq_setReg (exec_xOr x y s)
  case xOrBits => exact fun _ => BitVec.getLsbD_xor

end Sys2Proof.Machine
end

section
/-! Jumps to an address operand (42_control_flow.md R150). -/

namespace Sys2Proof.Machine

/-- R92: widening the 12-bit address operand keeps its value. -/
@[simp] theorem toNat_absoluteTarget (nnn : Addr12) : (absoluteTarget nnn).toNat = nnn.toNat :=
  BitVec.toNat_setWidth_of_le (by decide)

theorem exec_jump (nnn : Addr12) (s : State) :
    exec (.jump nnn) s = .next (s.jumpTo (absoluteTarget nnn)) := rfl

/-- Settles O17: `Jump` is one jump to its widened address operand, and a jump writes `pc` alone. -/
theorem jumpSetsThePc : Obligations.JumpSetsThePc :=
  fun nnn s => ⟨s.jumpTo (absoluteTarget nnn), exec_jump nnn s, rfl, toNat_absoluteTarget nnn⟩

end Sys2Proof.Machine
end

section
/-! The comparing skips (43_skip.md R160 to R164). -/

namespace Sys2Proof.Machine

/-- What a conditional skip does, for every instruction that is one: the flag `b` it computes stands for
the condition of the claim. -/
theorem skipsWhen_of_exec_eq_skipIf {i : Instr} {s : State} {b : Bool} {condition : Prop}
    (h : exec i s = .next (s.skipIf b)) (hb : b = true ↔ condition) : SkipsWhen i s condition := by
  rw [State.skipIf_eq] at h
  constructor
  · intro hc
    rwa [if_pos (hb.mpr hc)] at h
  · intro hc
    rwa [if_neg (mt hb.mp hc)] at h

theorem exec_skipEqualConstant (x : RegIdx) (nn : Byte) (s : State) :
    exec (.skipEqualConstant x nn) s = .next (s.skipIf (s.reg x == nn)) := rfl

theorem exec_skipNotEqualConstant (x : RegIdx) (nn : Byte) (s : State) :
    exec (.skipNotEqualConstant x nn) s = .next (s.skipIf (s.reg x != nn)) := rfl

theorem exec_skipEqualRegister (x y : RegIdx) (s : State) :
    exec (.skipEqualRegister x y) s = .next (s.skipIf (s.reg x == s.reg y)) := rfl

theorem exec_skipNotEqualRegister (x y : RegIdx) (s : State) :
    exec (.skipNotEqualRegister x y) s = .next (s.skipIf (s.reg x != s.reg y)) := rfl

/-- Settles O23: each of the four is one conditional skip, on the Boolean test of its comparison. -/
theorem comparisonsSkipOneInstruction : Obligations.ComparisonsSkipOneInstruction := by
  intro x y nn s
  refine ⟨?equalConstant, ?notEqualConstant, ?equalRegister, ?notEqualRegister⟩
  case equalConstant =>
    exact skipsWhen_of_exec_eq_skipIf (exec_skipEqualConstant x nn s) beq_iff_eq
  case notEqualConstant =>
    exact skipsWhen_of_exec_eq_skipIf (exec_skipNotEqualConstant x nn s) bne_iff_ne
  case equalRegister =>
    exact skipsWhen_of_exec_eq_skipIf (exec_skipEqualRegister x y s) beq_iff_eq
  case notEqualRegister =>
    exact skipsWhen_of_exec_eq_skipIf (exec_skipNotEqualRegister x y s) bne_iff_ne

end Sys2Proof.Machine
end

section
/-! The timer transfers (44_timers_keys.md R170, R172, R173). -/

namespace Sys2Proof.Machine

theorem exec_copyDelayToRegister (x : RegIdx) (s : State) :
    exec (.copyDelayToRegister x) s = .next (s.setReg x s.dt) := rfl

theorem exec_copyRegisterToDelay (x : RegIdx) (s : State) :
    exec (.copyRegisterToDelay x) s = .next { s with dt := s.reg x } := rfl

theorem exec_copyRegisterToSound (x : RegIdx) (s : State) :
    exec (.copyRegisterToSound x) s = .next { s with st := s.reg x } := rfl

/-- R173: the tone is on exactly while the sound timer is not 0. -/
theorem State.tone_iff (s : State) : s.tone = true ↔ s.st ≠ 0 :=
  calc s.tone = true
    _ ↔ 0 < s.st.toNat := decide_eq_true_iff
    _ ↔ s.st.toNat ≠ (0 : Byte).toNat := Nat.pos_iff_ne_zero
    _ ↔ s.st ≠ 0 := BitVec.toNat_inj.not

/-- Settles O25: reading DT is one register write, setting DT or ST writes that timer alone, and the tone
follows the ST that was written. -/
theorem timerTransfersAreVerbatim : Obligations.TimerTransfersAreVerbatim := by
  intro x s
  refine ⟨?readDelay, ?setDelay, { s with st := s.reg x }, ?setSound, rfl, ?tone⟩
  case readDelay => exact writesOnly_of_exec_eq_setReg (exec_copyDelayToRegister x s)
  case setDelay => exact exec_copyRegisterToDelay x s
  case setSound => exact exec_copyRegisterToSound x s
  case tone => exact State.tone_iff _

end Sys2Proof.Machine
end

section
/-! `ClearScreen` (45_display.md R180). -/

namespace Sys2Proof.Machine

theorem exec_clearScreen (s : State) :
    exec .clearScreen s = .next { s with fb := Framebuffer.clear } := rfl

/-- Settles O28: `ClearScreen` replaces the framebuffer alone, by the clear one, which has no pixel on. -/
theorem clearScreenClearsEveryPixel : Obligations.ClearScreenClearsEveryPixel :=
  fun s => ⟨{ s with fb := Framebuffer.clear }, exec_clearScreen s, rfl,
    fun col row _ _ => Framebuffer.pixel_clear col row⟩

end Sys2Proof.Machine
end

section
/-! `Unloaded`: the turns of the agents other than the host (10_state.md R32, 60_exceptions.md R202). -/

namespace Sys2Proof.Machine

theorem whileRunning_unloaded {s : State} (move : State → Result) (h : s.status = .unloaded) :
    whileRunning s move = .fault .awaitingLoad := by
  simp [whileRunning, h]

/-- Every move but the host's load and reset is guarded by `whileRunning`. -/
theorem runEvent_unloaded {e : Event} {s : State} (h : s.status = .unloaded)
    (hload : ∀ program, e ≠ .load program) (hreset : e ≠ .reset) :
    runEvent e s = .fault .awaitingLoad := by
  cases e with
  | cpu => exact whileRunning_unloaded cpuStep h
  | tickDelay => exact whileRunning_unloaded (fun s => .next s.tickDelay) h
  | tickSound => exact whileRunning_unloaded (fun s => .next s.tickSound) h
  | refresh => exact whileRunning_unloaded (fun s => .next s.refresh) h
  | load program => exact absurd rfl (hload program)
  | reset => exact absurd rfl hreset

/-- Settles O51: with an empty schedule the CPU is to move, else the event at its head, which is neither
of the host's two. -/
theorem nothingRunsBeforeALoad : Obligations.NothingRunsBeforeALoad := by
  intro s h hload hreset
  cases hs : s.schedule with
  | nil =>
    rw [step_cpu (.inr ⟨hs, rfl⟩)]
    exact whileRunning_unloaded cpuStep h
  | cons e rest =>
    rw [step_event hs]
    refine runEvent_unloaded h ?notLoad ?notReset
    case notLoad =>
      rintro program rfl
      exact hload program rest hs
    case notReset =>
      rintro rfl
      exact hreset rest hs

end Sys2Proof.Machine
end

section
/-! The decoder and the encoder: a word from its fields, and the bits of a word that its row is read
from (30_encoding.md R93 to R101, R104). -/

namespace Sys2Proof

open Sys2Proof.Laws

/-! ### Words from their fields (R91, R92) -/

theorem packA_fields (w : Word) : packA (family w) (fieldNNN w) = w :=
  append_halves (m := 4) (n := 12) w

/-- The upper byte of a word is its top two nibbles. -/
theorem family_append_fieldX (w : Word) : family w ++ fieldX w = w.extractLsb' 8 8 :=
  BitVec.extractLsb'_append_extractLsb'_eq_extractLsb' rfl

theorem packRI_fields (w : Word) : packRI (family w) (fieldX w) (fieldNN w) = w := by
  unfold packRI
  rw [family_append_fieldX]
  exact append_halves (m := 8) (n := 8) w

theorem packRRN_fields (w : Word) : packRRN (family w) (fieldX w) (fieldY w) (fieldN w) = w := by
  have htop : w.extractLsb' 8 8 ++ fieldY w = w.extractLsb' 4 12 :=
    BitVec.extractLsb'_append_extractLsb'_eq_extractLsb' rfl
  unfold packRRN
  rw [family_append_fieldX, htop]
  exact append_halves (m := 12) (n := 4) w

/-! ### Encoding what was decoded (R104) -/

/-- The encoding of `i` is `w`, for the two shifts `w` with the Y nibble cleared (D28). -/
def EncodesTo (i : Instr) (w : Word) : Prop :=
  match i with
  | .rightShift _ | .leftShift _ => encode i = w &&& 0xFF0F
  | _ => encode i = w

/-- The top nibble of the decoder's last family. -/
theorem nibble_eq_F {f : Nibble} (h0 : f ≠ 0x0) (h1 : f ≠ 0x1) (h2 : f ≠ 0x2) (h3 : f ≠ 0x3)
    (h4 : f ≠ 0x4) (h5 : f ≠ 0x5) (h6 : f ≠ 0x6) (h7 : f ≠ 0x7) (h8 : f ≠ 0x8) (h9 : f ≠ 0x9)
    (hA : f ≠ 0xA) (hB : f ≠ 0xB) (hC : f ≠ 0xC) (hD : f ≠ 0xD) (hE : f ≠ 0xE) : f = 0xF := by
  bv_omega

theorem encodesTo_decodeFamily0 (w : Word) : EncodesTo (decodeFamily0 w) w := by
  unfold decodeFamily0
  split
  · next h => exact h.symm
  · split
    · next h => exact h.symm
    · exact rfl

/-- A word of a family in format `RR` or `RRN`, from its operand fields. -/
theorem packRRN_eq {w : Word} {op n : Nibble} (hop : family w = op) (hn : fieldN w = n) :
    packRRN op (fieldX w) (fieldY w) n = w := by
  rw [← hop, ← hn, packRRN_fields]

theorem packRI_eq {w : Word} {op : Nibble} {fn : Byte} (hop : family w = op) (hfn : fieldNN w = fn) :
    packRI op (fieldX w) fn = w := by
  rw [← hop, ← hfn, packRI_fields]

theorem packA_eq {w : Word} {op : Nibble} (hop : family w = op) : packA op (fieldNNN w) = w := by
  rw [← hop, packA_fields]

/-- The word of a shift is the word with the Y nibble cleared. -/
theorem packRRN_shift {w : Word} {op n : Nibble} (hop : family w = op) (hn : fieldN w = n) :
    packRRN op (fieldX w) 0x0 n = w &&& 0xFF0F := by
  have h := packRRN_and op 0xF (fieldX w) 0xF (fieldY w) 0x0 n 0xF
  rw [packRRN_eq hop hn, show op &&& 0xF = op from BitVec.and_allOnes,
    show fieldX w &&& 0xF = fieldX w from BitVec.and_allOnes,
    show fieldY w &&& 0x0 = 0x0 from BitVec.and_zero,
    show n &&& 0xF = n from BitVec.and_allOnes] at h
  exact h.symm

theorem encodesTo_decodeFamily5 {w : Word} (hop : family w = 0x5) : EncodesTo (decodeFamily5 w) w := by
  unfold decodeFamily5
  split
  · next hn => exact packRRN_eq hop hn
  · exact rfl

theorem encodesTo_decodeFamily8 {w : Word} (hop : family w = 0x8) : EncodesTo (decodeFamily8 w) w := by
  unfold decodeFamily8
  split
  case h_7 hn => exact packRRN_shift hop hn
  case h_9 hn => exact packRRN_shift hop hn
  case h_10 => exact rfl
  all_goals exact packRRN_eq hop ‹fieldN w = _›

theorem encodesTo_decodeFamily9 {w : Word} (hop : family w = 0x9) : EncodesTo (decodeFamily9 w) w := by
  unfold decodeFamily9
  split
  · next hn => exact packRRN_eq hop hn
  · exact rfl

theorem encodesTo_decodeFamilyE {w : Word} (hop : family w = 0xE) : EncodesTo (decodeFamilyE w) w := by
  unfold decodeFamilyE
  split
  case h_3 => exact rfl
  all_goals exact packRI_eq hop ‹fieldNN w = _›

theorem encodesTo_decodeFamilyF {w : Word} (hop : family w = 0xF) : EncodesTo (decodeFamilyF w) w := by
  unfold decodeFamilyF
  split
  case h_10 => exact rfl
  all_goals exact packRI_eq hop ‹fieldNN w = _›

theorem encodesTo_decodeWord (w : Word) : EncodesTo (decodeWord w) w := by
  unfold decodeWord
  split
  case h_1 hop => exact encodesTo_decodeFamily0 w
  case h_2 hop => exact packA_eq hop
  case h_3 hop => exact packA_eq hop
  case h_4 hop => exact packRI_eq hop rfl
  case h_5 hop => exact packRI_eq hop rfl
  case h_6 hop => exact encodesTo_decodeFamily5 hop
  case h_7 hop => exact packRI_eq hop rfl
  case h_8 hop => exact packRI_eq hop rfl
  case h_9 hop => exact encodesTo_decodeFamily8 hop
  case h_10 hop => exact encodesTo_decodeFamily9 hop
  case h_11 hop => exact packA_eq hop
  case h_12 hop => exact packA_eq hop
  case h_13 hop => exact packRI_eq hop rfl
  case h_14 hop => exact packRRN_eq hop rfl
  case h_15 hop => exact encodesTo_decodeFamilyE hop
  case h_16 h0 h1 h2 h3 h4 h5 h6 h7 h8 h9 hA hB hC hD hE =>
    exact encodesTo_decodeFamilyF (nibble_eq_F h0 h1 h2 h3 h4 h5 h6 h7 h8 h9 hA hB hC hD hE)

/-- A decoded `Unrecognized` carries the word it was decoded from (log 9). -/
theorem word_of_decodeWord_unrecognized {w v : Word} (h : decodeWord w = .unrecognized v) : v = w := by
  have henc := encodesTo_decodeWord w
  rwa [h] at henc

/-! ### The rows of R100 -/

/-- The bits of a word its row is read from, by family: all of them, the top and the low nibble, the top
nibble and the low byte, or the top nibble. -/
def fixedBits (op : Nibble) : Word :=
  if op = 0x0 then 0xFFFF
  else if op = 0x5 ∨ op = 0x8 ∨ op = 0x9 then 0xF00F
  else if op = 0xE ∨ op = 0xF then 0xF0FF
  else 0xF000

theorem family_and_fixedBits (w : Word) (op : Nibble) : family (w &&& fixedBits op) = family w := by
  have hmask : ∀ op : Nibble, family (fixedBits op) = 0xF := by decide
  calc family (w &&& fixedBits op)
    _ = family w &&& family (fixedBits op) := BitVec.extractLsb'_and
    _ = family w := by rw [hmask]; exact BitVec.and_allOnes

theorem fieldN_and (w : Word) {mask : Word} (h : fieldN mask = 0xF) : fieldN (w &&& mask) = fieldN w :=
  calc fieldN (w &&& mask)
    _ = fieldN w &&& fieldN mask := BitVec.extractLsb'_and
    _ = fieldN w := by rw [h]; exact BitVec.and_allOnes

theorem fieldNN_and (w : Word) {mask : Word} (h : fieldNN mask = 0xFF) :
    fieldNN (w &&& mask) = fieldNN w :=
  calc fieldNN (w &&& mask)
    _ = fieldNN w &&& fieldNN mask := BitVec.extractLsb'_and
    _ = fieldNN w := by rw [h]; exact BitVec.and_allOnes

theorem rowNumber_decodeFamily5_congr {v w : Word} (h : fieldN v = fieldN w) :
    (decodeFamily5 v).rowNumber = (decodeFamily5 w).rowNumber := by
  unfold decodeFamily5
  rw [h]
  split <;> rfl

theorem rowNumber_decodeFamily8_congr {v w : Word} (h : fieldN v = fieldN w) :
    (decodeFamily8 v).rowNumber = (decodeFamily8 w).rowNumber := by
  unfold decodeFamily8
  rw [h]
  split <;> rfl

theorem rowNumber_decodeFamily9_congr {v w : Word} (h : fieldN v = fieldN w) :
    (decodeFamily9 v).rowNumber = (decodeFamily9 w).rowNumber := by
  unfold decodeFamily9
  rw [h]
  split <;> rfl

theorem rowNumber_decodeFamilyE_congr {v w : Word} (h : fieldNN v = fieldNN w) :
    (decodeFamilyE v).rowNumber = (decodeFamilyE w).rowNumber := by
  unfold decodeFamilyE
  rw [h]
  split <;> rfl

theorem rowNumber_decodeFamilyF_congr {v w : Word} (h : fieldNN v = fieldNN w) :
    (decodeFamilyF v).rowNumber = (decodeFamilyF w).rowNumber := by
  unfold decodeFamilyF
  rw [h]
  split <;> rfl

/-- The row of a word is read from its fixed bits alone. -/
theorem rowNumber_decodeWord_fixedBits (w : Word) :
    (decodeWord (w &&& fixedBits (family w))).rowNumber = (decodeWord w).rowNumber := by
  unfold decodeWord
  rw [family_and_fixedBits]
  split
  case h_1 h =>
    have hw : w &&& fixedBits (family w) = w := by rw [h]; exact BitVec.and_allOnes
    rw [hw]
  case h_6 h => exact rowNumber_decodeFamily5_congr (fieldN_and w (by rw [h]; rfl))
  case h_9 h => exact rowNumber_decodeFamily8_congr (fieldN_and w (by rw [h]; rfl))
  case h_10 h => exact rowNumber_decodeFamily9_congr (fieldN_and w (by rw [h]; rfl))
  case h_15 h => exact rowNumber_decodeFamilyE_congr (fieldNN_and w (by rw [h]; rfl))
  case h_16 h0 h1 h2 h3 h4 h5 h6 h7 h8 h9 hA hB hC hD hE =>
    have h := nibble_eq_F h0 h1 h2 h3 h4 h5 h6 h7 h8 h9 hA hB hC hD hE
    exact rowNumber_decodeFamilyF_congr (fieldNN_and w (by rw [h]; rfl))
  all_goals rfl

/-- A row's mask is the fixed bits of its family. -/
theorem mask_eq_fixedBits : ∀ r ∈ opcodeMap, r.mask = fixedBits (family r.pattern) := by
  decide

theorem rowNumber_decodeWord_pattern : ∀ r ∈ opcodeMap, (decodeWord r.pattern).rowNumber = r.number := by
  decide

theorem row_of_number_unique : ∀ r ∈ opcodeMap, ∀ q ∈ opcodeMap, r.number = q.number → r = q := by
  decide

theorem OpcodeRow.takes_iff (r : OpcodeRow) (w : Word) : r.takes w = true ↔ w &&& r.mask = r.pattern :=
  beq_iff_eq

/-- A word decodes to the row that takes it: the row's pattern is the word's fixed bits. -/
theorem rowNumber_decodeWord_of_takes {r : OpcodeRow} (hr : r ∈ opcodeMap) {w : Word}
    (h : r.takes w = true) : (decodeWord w).rowNumber = r.number := by
  have hmask := mask_eq_fixedBits r hr
  have hpattern := (r.takes_iff w).mp h
  have hop : family w = family r.pattern := by
    rw [← hpattern, hmask, family_and_fixedBits]
  calc (decodeWord w).rowNumber
    _ = (decodeWord (w &&& fixedBits (family w))).rowNumber := (rowNumber_decodeWord_fixedBits w).symm
    _ = (decodeWord r.pattern).rowNumber := by rw [hop, ← hmask, hpattern]
    _ = r.number := rowNumber_decodeWord_pattern r hr

theorem isDefinedWord_iff (w : Word) : isDefinedWord w = true ↔ ∃ r ∈ opcodeMap, r.takes w = true :=
  List.any_eq_true

theorem not_isDefinedWord_of_decodeWord {w v : Word} (h : decodeWord w = .unrecognized v) :
    isDefinedWord w = false := by
  rw [← Bool.not_eq_true, isDefinedWord_iff]
  rintro ⟨r, hr, hw⟩
  have hlast : ∀ r ∈ opcodeMap, r.number ≠ 35 := by decide
  have hnumber := rowNumber_decodeWord_of_takes hr hw
  rw [h] at hnumber
  exact hlast r hr hnumber.symm

/-- Every word decodes to a well-formed instruction. -/
theorem wellFormed_decodeWord (w : Word) : (decodeWord w).wellFormed = true := by
  cases h : decodeWord w with
  | unrecognized v =>
    rw [word_of_decodeWord_unrecognized h, Instr.wellFormed, not_isDefinedWord_of_decodeWord h]
    rfl
  | _ => rfl

/-- Settles O57: by families, each operand field of a word is the field its encoding packs. -/
theorem encodeOfDecodeIsTheWord : Obligations.EncodeOfDecodeIsTheWord :=
  fun w => ⟨wellFormed_decodeWord w, encodesTo_decodeWord w⟩

/-- The encoding of every well-formed instruction is in the instruction's row. -/
theorem encodingRow : ∀ i : Instr, EncodingRow.Statement i
  | .clearScreen => EncodingRow.clearScreen
  | .popSubroutine => EncodingRow.popSubroutine
  | .jump nnn => EncodingRow.jump nnn
  | .pushSubroutine nnn => EncodingRow.pushSubroutine nnn
  | .skipEqualConstant x nn => EncodingRow.skipEqualConstant x nn
  | .skipNotEqualConstant x nn => EncodingRow.skipNotEqualConstant x nn
  | .skipEqualRegister x y => EncodingRow.skipEqualRegister x y
  | .setRegister x nn => EncodingRow.setRegister x nn
  | .addConstant x nn => EncodingRow.addConstant x nn
  | .copyRegister x y => EncodingRow.copyRegister x y
  | .or x y => EncodingRow.or x y
  | .and x y => EncodingRow.and x y
  | .xOr x y => EncodingRow.xOr x y
  | .add x y => EncodingRow.add x y
  | .subtractForward x y => EncodingRow.subtractForward x y
  | .rightShift x => EncodingRow.rightShift x
  | .subtractBackward x y => EncodingRow.subtractBackward x y
  | .leftShift x => EncodingRow.leftShift x
  | .skipNotEqualRegister x y => EncodingRow.skipNotEqualRegister x y
  | .setIndex nnn => EncodingRow.setIndex nnn
  | .jumpWithOffset nnn => EncodingRow.jumpWithOffset nnn
  | .random x nn => EncodingRow.random x nn
  | .display x y n => EncodingRow.display x y n
  | .skipIfPressed x => EncodingRow.skipIfPressed x
  | .skipIfNotPressed x => EncodingRow.skipIfNotPressed x
  | .copyDelayToRegister x => EncodingRow.copyDelayToRegister x
  | .getKey x => EncodingRow.getKey x
  | .copyRegisterToDelay x => EncodingRow.copyRegisterToDelay x
  | .copyRegisterToSound x => EncodingRow.copyRegisterToSound x
  | .addToIndex x => EncodingRow.addToIndex x
  | .pointChar x => EncodingRow.pointChar x
  | .toDecimal x => EncodingRow.toDecimal x
  | .storeRegisters x => EncodingRow.storeRegisters x
  | .loadRegisters x => EncodingRow.loadRegisters x
  | .unrecognized w => EncodingRow.unrecognized w

/-- The row of a decoded instruction takes the word: a shift's row does not look at the Y nibble. -/
theorem takes_of_encodesTo {r : OpcodeRow} (hr : r ∈ opcodeMap) {i : Instr} {w : Word}
    (hi : EncodesTo i w) (hnumber : r.number = i.rowNumber) (h : r.takes (encode i) = true) :
    r.takes w = true := by
  have hmask : ∀ r ∈ opcodeMap, r.number = 16 ∨ r.number = 18 → 0xFF0F &&& r.mask = r.mask := by decide
  rw [OpcodeRow.takes_iff] at h ⊢
  unfold EncodesTo at hi
  split at hi
  · rwa [hi, BitVec.and_assoc, hmask r hr (.inl hnumber)] at h
  · rwa [hi, BitVec.and_assoc, hmask r hr (.inr hnumber)] at h
  · rwa [hi] at h

theorem eq_unrecognized_of_no_row {i : Instr}
    (h : opcodeMap.find? (fun r => r.number == i.rowNumber) = none) : ∃ w, i = .unrecognized w := by
  cases i with
  | unrecognized w => exact ⟨w, rfl⟩
  | _ => cases h

/-- A word no row takes decodes to `Unrecognized` (R101). -/
theorem decodeWord_of_not_isDefinedWord {w : Word} (h : isDefinedWord w = false) :
    decodeWord w = .unrecognized w := by
  have hrow := encodingRow (decodeWord w) (wellFormed_decodeWord w)
  split at hrow
  · next r hfind =>
    have hr : r ∈ opcodeMap := List.mem_of_find?_eq_some hfind
    have hnumber : (r.number == (decodeWord w).rowNumber) = true := by
      simpa using List.find?_some hfind
    have hw := takes_of_encodesTo hr (encodesTo_decodeWord w) (beq_iff_eq.mp hnumber) hrow
    rw [(isDefinedWord_iff w).mpr ⟨r, hr, hw⟩] at h
    cases h
  · next hfind =>
    obtain ⟨v, hv⟩ := eq_unrecognized_of_no_row hfind
    rw [hv, word_of_decodeWord_unrecognized hv]

theorem rowNumber_decodeWord (w : Word) : (decodeWord w).rowNumber = rowNumberOfWord w := by
  unfold rowNumberOfWord
  split
  · next r hfind =>
    have hw : r.takes w = true := by simpa using List.find?_some hfind
    exact rowNumber_decodeWord_of_takes (List.mem_of_find?_eq_some hfind) hw
  · next hfind =>
    have hundefined : isDefinedWord w = false := by
      rw [← Bool.not_eq_true, isDefinedWord_iff]
      rintro ⟨r, hr, hw⟩
      exact List.find?_eq_none.mp hfind r hr hw
    rw [decodeWord_of_not_isDefinedWord hundefined]
    rfl

/-- Settles O58: the decoder reads the fixed bits of a word, which are its row's pattern, and a row's
number is in the table once. -/
theorem decoderAgreesWithTheOpcodeMap : Obligations.DecoderAgreesWithTheOpcodeMap := by
  refine fun w => ⟨rowNumber_decodeWord w, fun r hr q hq hrw hqw => row_of_number_unique r hr q hq ?_⟩
  rw [← rowNumber_decodeWord_of_takes hr hrw, rowNumber_decodeWord_of_takes hq hqw]

/-- Decoding undoes encoding, by the formats of R91: the fields of a packed word are what was packed. -/
theorem decodeWord_encode {i : Instr} (h : i.wellFormed = true) : decodeWord (encode i) = i := by
  cases i
  case unrecognized w =>
    have hw : isDefinedWord w = false := by simpa only [Instr.wellFormed, Bool.not_eq_true'] using h
    exact decodeWord_of_not_isDefinedWord hw
  case clearScreen | popSubroutine => rfl
  case jump | pushSubroutine | setIndex | jumpWithOffset | skipEqualConstant | skipNotEqualConstant
      | setRegister | addConstant | random | display =>
    simp [encode, decodeWord]
  case skipEqualRegister => simp [encode, decodeWord, decodeFamily5]
  case skipNotEqualRegister => simp [encode, decodeWord, decodeFamily9]
  case copyRegister | or | and | xOr | add | subtractForward | rightShift | subtractBackward | leftShift =>
    simp [encode, decodeWord, decodeFamily8]
  case skipIfPressed | skipIfNotPressed => simp [encode, decodeWord, decodeFamilyE]
  case copyDelayToRegister | getKey | copyRegisterToDelay | copyRegisterToSound | addToIndex | pointChar
      | toDecimal | storeRegisters | loadRegisters =>
    simp [encode, decodeWord, decodeFamilyF]

/-- Settles O56: an `Unrecognized` decodes to itself because no row takes its word, every other
instruction because the decoder reads back the fields the encoder packs. -/
theorem decodeOfEncodeIsTheInstruction : Obligations.DecodeOfEncodeIsTheInstruction :=
  fun _ => decodeWord_encode

/-- Settles O60: the decoder computes each of the words. -/
theorem sampleWordsDecode : Obligations.SampleWordsDecode := by
  unfold Obligations.SampleWordsDecode
  decide

end Sys2Proof
end

section
/-! Additions, subtractions and shifts (40_register_alu.md R121, R126 to R130) and `Random` (R131). -/

namespace Sys2Proof.Machine

theorem exec_addConstant (x : RegIdx) (nn : Byte) (s : State) :
    exec (.addConstant x nn) s = .next (s.setReg x (s.reg x + nn)) := rfl

theorem exec_add (x y : RegIdx) (s : State) : exec (.add x y) s =
    .next (s.setResultThenFlag x (s.reg x + s.reg y) (carryOut (s.reg x) (s.reg y))) := rfl

theorem exec_subtractForward (x y : RegIdx) (s : State) : exec (.subtractForward x y) s =
    .next (s.setResultThenFlag x (s.reg x - s.reg y) (noBorrow (s.reg x) (s.reg y))) := rfl

theorem exec_subtractBackward (x y : RegIdx) (s : State) : exec (.subtractBackward x y) s =
    .next (s.setResultThenFlag x (s.reg y - s.reg x) (noBorrow (s.reg y) (s.reg x))) := rfl

theorem exec_rightShift (x : RegIdx) (s : State) : exec (.rightShift x) s =
    .next (s.setResultThenFlag x (s.reg x >>> 1) (lowBit (s.reg x))) := rfl

theorem exec_leftShift (x : RegIdx) (s : State) : exec (.leftShift x) s =
    .next (s.setResultThenFlag x (s.reg x <<< 1) (highBit (s.reg x))) := rfl

theorem exec_random (x : RegIdx) (nn : Byte) (s : State) : exec (.random x nn) s =
    .next (s.randomByte.2.setReg x (s.randomByte.1 &&& nn)) := rfl

/-! ### The values -/

theorem add_eq_ofNat_mod (a b : Byte) : a + b = BitVec.ofNat 8 ((a.toNat + b.toNat) % 256) := by
  bv_omega

theorem toNat_sub_byte (a b : Byte) : (a - b).toNat = (a.toNat + 256 - b.toNat) % 256 := by
  bv_omega

theorem toNat_shiftRight_one (a : Byte) : (a >>> 1).toNat = a.toNat / 2 := by
  rw [BitVec.toNat_ushiftRight, Nat.shiftRight_one]

theorem toNat_shiftLeft_one (a : Byte) : (a <<< 1).toNat = 2 * a.toNat % 256 := by
  rw [BitVec.toNat_shiftLeft, Nat.shiftLeft_eq, Nat.pow_one, Nat.mul_comm]

theorem carryOut_iff (a b : Byte) : carryOut a b = true ↔ a.toNat + b.toNat > 255 := decide_eq_true_iff

theorem noBorrow_iff (a b : Byte) : noBorrow a b = true ↔ a.toNat ≥ b.toNat := decide_eq_true_iff

theorem lowBit_iff (a : Byte) : lowBit a = true ↔ a.toNat % 2 = 1 := by
  rw [lowBit, BitVec.getLsbD, Nat.testBit_zero, decide_eq_true_iff]

theorem highBit_iff (a : Byte) : highBit a = true ↔ a.toNat ≥ 128 := by
  have ha := a.isLt
  rw [highBit, BitVec.getLsbD, Nat.testBit_eq_decide_div_mod_eq, decide_eq_true_iff]
  omega

/-! ### A result and its flag -/

theorem toNat_flagByte (b : Bool) : (flagByte b).toNat = if b then 1 else 0 := by
  cases b <;> rfl

/-- What a result write with the flag write after it does, for every instruction that is one (R132): the
flag `b` it computes stands for the condition of the claim. -/
theorem writesResultAndFlag_of_exec {i : Instr} {s : State} {x : RegIdx} {v : Byte} {b : Bool}
    {result : Nat} {flag : Prop} [Decidable flag] (h : exec i s = .next (s.setResultThenFlag x v b))
    (hv : v.toNat = result) (hb : b = true ↔ flag) : WritesResultAndFlag i s x result flag := by
  refine ⟨_, h, rfl, ?result, ?flag, ?kept⟩
  case result =>
    intro hx
    rw [State.setResultThenFlag_eq, State.reg_setReg_of_ne _ _ hx, State.reg_setReg_same, hv]
  case flag =>
    rw [State.setResultThenFlag_eq, State.reg_setReg_same, toNat_flagByte]
    exact if_congr hb rfl rfl
  case kept =>
    intro r hr
    obtain ⟨hx, hf⟩ : r ≠ x ∧ r ≠ vf := by simpa using hr
    rw [State.setResultThenFlag_eq, State.reg_setReg_of_ne _ _ hf, State.reg_setReg_of_ne _ _ hx]

/-- Settles O2: `AddConstant` is one register write, of the sum modulo 256. -/
theorem addConstantWrapsWithoutFlag : Obligations.AddConstantWrapsWithoutFlag := by
  intro x nn s
  rw [← add_eq_ofNat_mod]
  exact writesOnly_of_exec_eq_setReg (exec_addConstant x nn s)

/-- Settles O4: `Add` writes the sum, then the carry. -/
theorem addWrapsAndFlagsCarry : Obligations.AddWrapsAndFlagsCarry :=
  fun x y s => writesResultAndFlag_of_exec (exec_add x y s) (BitVec.toNat_add ..) (carryOut_iff ..)

/-- Settles O5: each subtraction writes the difference, then whether there was no borrow. -/
theorem subtractionsWrapAndFlagNoBorrow : Obligations.SubtractionsWrapAndFlagNoBorrow :=
  fun x y s =>
    ⟨writesResultAndFlag_of_exec (exec_subtractForward x y s) (toNat_sub_byte ..) (noBorrow_iff ..),
      writesResultAndFlag_of_exec (exec_subtractBackward x y s) (toNat_sub_byte ..) (noBorrow_iff ..)⟩

/-- Settles O6: each shift writes the shifted value, then the bit shifted out. -/
theorem shiftsMoveOneBitIntoVF : Obligations.ShiftsMoveOneBitIntoVF :=
  fun x s =>
    ⟨writesResultAndFlag_of_exec (exec_rightShift x s) (toNat_shiftRight_one _) (lowBit_iff _),
      writesResultAndFlag_of_exec (exec_leftShift x s) (toNat_shiftLeft_one _) (highBit_iff _)⟩

/-! ### A random byte -/

/-- The draw of a random byte leaves every register alone. -/
theorem reg_randomByte (s : State) (r : RegIdx) : s.randomByte.2.reg r = s.reg r :=
  State.reg_of_regs (by rw [randomByte_state]) r

/-- Settles O7: `Random` is one register write on the state the draw leaves; the draw takes the host's
answer where there is one. -/
theorem randomMasksAFreeByte : Obligations.RandomMasksAFreeByte := by
  intro x nn s
  refine ⟨⟨_, s.randomByte.1, exec_random x nn s, State.reg_setReg_same .., ?kept, ?frame⟩, ?answered⟩
  case kept =>
    intro r hr
    rw [regsKeptBut_setReg _ x _ r hr, reg_randomByte]
  case frame =>
    rw [randomByte_state]
    rfl
  case answered =>
    intro r rest h
    refine ⟨_, exec_random x nn s, ?_⟩
    rw [randomByte_answered h]
    exact ⟨State.reg_setReg_same .., regsKeptBut_setReg _ x _, rfl⟩

end Sys2Proof.Machine
end

section
/-! The index register (41_memory_index.md R140 to R142). -/

namespace Sys2Proof.Machine

theorem exec_setIndex (nnn : Addr12) (s : State) :
    exec (.setIndex nnn) s = .next { s with index := absoluteTarget nnn } := rfl

theorem exec_addToIndex (x : RegIdx) (s : State) : exec (.addToIndex x) s =
    .next ({ s with index := s.index + (s.reg x).setWidth 16 }.quirkFlag
      (indexOverflow s.index (s.reg x))) := rfl

theorem exec_pointChar (x : RegIdx) (s : State) : exec (.pointChar x) s =
    withFontDigit (s.reg x) s fun s => .next { s with index := glyphAddress (s.reg x) } := rfl

/-- Settles O8: `SetIndex` writes `I` alone, and widening the operand keeps its value. -/
theorem setIndexZeroExtends : Obligations.SetIndexZeroExtends :=
  fun nnn s => ⟨{ s with index := absoluteTarget nnn }, exec_setIndex nnn s, rfl, toNat_absoluteTarget nnn⟩

theorem toNat_index_add (i : Word) (a : Byte) :
    (i + a.setWidth 16).toNat = (i.toNat + a.toNat) % 65536 := by
  bv_omega

theorem indexOverflow_iff (i : Word) (a : Byte) :
    indexOverflow i a = true ↔ i.toNat + a.toNat > 0xFFF := decide_eq_true_iff

theorem quirkFlag_off {s : State} (h : s.params.quirkAddIndexFlag = false) (b : Bool) :
    s.quirkFlag b = s := by
  rw [State.quirkFlag_eq, h]
  rfl

theorem quirkFlag_on {s : State} (h : s.params.quirkAddIndexFlag = true) (b : Bool) :
    s.quirkFlag b = s.setReg vf (flagByte b) := by
  rw [State.quirkFlag_eq, h]
  rfl

theorem quirkFlag_index (s : State) (b : Bool) : (s.quirkFlag b).index = s.index := by
  rw [State.quirkFlag_eq]
  split <;> rfl

/-- Settles O9: the flag write after the sum is there exactly under the quirk. -/
theorem addToIndexWrapsAndObeysTheQuirk : Obligations.AddToIndexWrapsAndObeysTheQuirk := by
  intro x s
  refine ⟨_, exec_addToIndex x s, ?sum, ?off, ?on⟩
  case sum => rw [quirkFlag_index, toNat_index_add]
  case off =>
    intro h
    rw [quirkFlag_off (s := { s with index := s.index + (s.reg x).setWidth 16 }) h]
  case on =>
    intro h
    rw [quirkFlag_on (s := { s with index := s.index + (s.reg x).setWidth 16 }) h]
    refine ⟨rfl, regsKeptBut_setReg _ vf _, ?_⟩
    rw [State.reg_setReg_same, toNat_flagByte]
    exact if_congr (indexOverflow_iff ..) rfl rfl

/-! ### Glyphs (R142, 20_memory.md R69) -/

theorem toNat_glyphAddress (d : Byte) : (glyphAddress d).toNat = 0x50 + 5 * d.toNat := by
  have hd := d.isLt
  rw [glyphAddress, BitVec.toNat_ofNat, Config.fontAddress, Config.glyphBytes]
  omega

/-- The five bytes of a digit's glyph, as memory reads before anything is stored. -/
theorem readBytes_background_glyph : ∀ d < 16,
    Memory.readBytes [] (0x50 + 5 * d) 5 = (fontTable.drop (5 * d)).take 5 := by
  decide

theorem readBytes_glyph {m : Memory} (h : ∀ c ∈ m, c.1 < 0x50 ∨ 0xA0 ≤ c.1) {d : Nat} (hd : d ≤ 15) :
    m.readBytes (0x50 + 5 * d) 5 = (fontTable.drop (5 * d)).take 5 := by
  rw [← readBytes_background_glyph d (by omega)]
  refine Memory.readBytes_congr 5 _ fun a hlow hhigh => Memory.read_unlisted m fun c hc hca => ?_
  have := h c hc
  omega

/-- Settles O10: `PointChar` of a digit writes the address of its glyph to `I` alone, where an unchanged
font table has the digit's rows. -/
theorem pointCharAddressesTheGlyph : Obligations.PointCharAddressesTheGlyph := by
  intro x s hx
  refine ⟨{ s with index := glyphAddress (s.reg x) }, ?exec, rfl, toNat_glyphAddress _, ?glyph⟩
  case exec => rw [exec_pointChar, withFontDigit_digit _ hx]
  case glyph =>
    intro h
    rw [toNat_glyphAddress]
    exact readBytes_glyph h hx

end Sys2Proof.Machine
end

section
/-! Operands above 15 and ranges that leave the memory (41_memory_index.md R142, R146; 43_skip.md R165,
R166). -/

namespace Sys2Proof.Machine

theorem exec_skipIfPressed (x : RegIdx) (s : State) : exec (.skipIfPressed x) s =
    withKeyIndex (s.reg x) s fun s =>
      .next (s.keypadSample.2.skipIf (s.keypadSample.1.getLsbD (s.reg x).toNat)) := rfl

theorem exec_skipIfNotPressed (x : RegIdx) (s : State) : exec (.skipIfNotPressed x) s =
    withKeyIndex (s.reg x) s fun s =>
      .next (s.keypadSample.2.skipIf (!s.keypadSample.1.getLsbD (s.reg x).toNat)) := rfl

theorem exec_toDecimal (x : RegIdx) (s : State) : exec (.toDecimal x) s =
    withRange 3 s fun s =>
      .next { s with mem := s.mem.writeBytes s.index.toNat (decimalDigits (s.reg x)) } := rfl

theorem exec_storeRegisters (x : RegIdx) (s : State) : exec (.storeRegisters x) s =
    withRange (x.toNat + 1) s fun s =>
      .next { s with mem := s.mem.writeBytes s.index.toNat (s.regsUpTo x) } := rfl

theorem exec_loadRegisters (x : RegIdx) (s : State) : exec (.loadRegisters x) s =
    withRange (x.toNat + 1) s fun s =>
      .next (s.setRegsUpTo x fun k => s.mem.read (s.elementAddress k)) := rfl

theorem exec_display (x y : RegIdx) (n : Nibble) (s : State) : exec (.display x y n) s =
    withRange n.toNat s fun s => .next ({ s with fb := (s.drawSprite x y n.toNat).fb }.setFlag
      (s.drawSprite x y n.toNat).collision) := rfl

/-- Settles O11: all three check their operand first, and a raised fault changes `pc` and `status`. -/
theorem operandsAboveFifteenRaise : Obligations.OperandsAboveFifteenRaise := by
  intro x s hx
  refine ⟨?digit, ?pressed, ?notPressed⟩
  case digit => rw [Raises, exec_pointChar, withFontDigit_outside _ hx, raise_eq]
  case pressed => rw [Raises, exec_skipIfPressed, withKeyIndex_outside _ hx, raise_eq]
  case notPressed => rw [Raises, exec_skipIfNotPressed, withKeyIndex_outside _ hx, raise_eq]

theorem rangeFits_of_last {s : State} {k : Nat} (h : s.elementAddress k ≤ 4095) :
    s.rangeFits (k + 1) = true := by
  unfold State.elementAddress at h
  rw [rangeFits_iff]
  omega

theorem rangeFits_eq_false_of_last {s : State} {k : Nat} (h : 4095 < s.elementAddress k) :
    s.rangeFits (k + 1) = false := by
  unfold State.elementAddress at h
  rw [← Bool.not_eq_true, rangeFits_iff]
  omega

/-- Settles O16: all four check their range first, and a raised fault changes `pc` and `status`. -/
theorem rangesBeyondMemoryRaise : Obligations.RangesBeyondMemoryRaise := by
  intro x y n s
  refine ⟨fun h => ?toDecimal, fun h => ⟨?store, ?load⟩, fun hn h => ?display⟩
  case toDecimal =>
    rw [Raises, exec_toDecimal, withRange_outside _ (rangeFits_eq_false_of_last h), raise_eq]
  case store =>
    rw [Raises, exec_storeRegisters, withRange_outside _ (rangeFits_eq_false_of_last h), raise_eq]
  case load =>
    rw [Raises, exec_loadRegisters, withRange_outside _ (rangeFits_eq_false_of_last h), raise_eq]
  case display =>
    have hrange := rangeFits_eq_false_of_last h
    rw [Nat.sub_add_cancel hn] at hrange
    rw [Raises, exec_display, withRange_outside _ hrange, raise_eq]

end Sys2Proof.Machine
end

section
/-! The memory instructions inside the memory (41_memory_index.md R143 to R145). -/

namespace Sys2Proof.Machine

/-! ### What each leaves -/

theorem exec_toDecimal_fits {x : RegIdx} {s : State} (h : s.elementAddress 2 ≤ 4095) :
    exec (.toDecimal x) s =
      .next { s with mem := s.mem.writeBytes s.index.toNat (decimalDigits (s.reg x)) } := by
  rw [exec_toDecimal, withRange_fits _ (rangeFits_of_last h)]

theorem exec_storeRegisters_fits {x : RegIdx} {s : State} (h : s.elementAddress x.toNat ≤ 4095) :
    exec (.storeRegisters x) s =
      .next { s with mem := s.mem.writeBytes s.index.toNat (s.regsUpTo x) } := by
  rw [exec_storeRegisters, withRange_fits _ (rangeFits_of_last h)]

theorem exec_loadRegisters_fits {x : RegIdx} {s : State} (h : s.elementAddress x.toNat ≤ 4095) :
    exec (.loadRegisters x) s =
      .next (s.setRegsUpTo x fun k => s.mem.read (s.elementAddress k)) := by
  rw [exec_loadRegisters, withRange_fits _ (rangeFits_of_last h)]

/-! ### Bytes stored from `I` -/

/-- A block store from `I` leaves every byte outside its addresses. -/
theorem memKeptOutside_writeBytes (s : State) (bytes : List Byte) :
    MemKeptOutside (s.elementAddress 0) bytes.length s
      { s with mem := s.mem.writeBytes s.index.toNat bytes } :=
  fun a ha => Memory.read_writeBytes_outside bytes s.mem s.index.toNat a ha

theorem length_regsUpTo (s : State) (x : RegIdx) : (s.regsUpTo x).length = x.toNat + 1 := by
  rw [State.regsUpTo, List.length_map, List.length_range]

theorem getElem_regsUpTo (s : State) (x k : RegIdx) (h : k.toNat < (s.regsUpTo x).length) :
    (s.regsUpTo x)[k.toNat] = s.reg k := by
  simp [State.regsUpTo]

theorem read_stored_register {s : State} {x k : RegIdx} (h : k.toNat ≤ x.toNat) :
    (s.mem.writeBytes s.index.toNat (s.regsUpTo x)).read (s.elementAddress k.toNat) = s.reg k := by
  have hk : k.toNat < (s.regsUpTo x).length := by
    rw [length_regsUpTo]
    omega
  exact (Memory.read_writeBytes _ _ _ _ hk).trans (getElem_regsUpTo s x k hk)

/-- The three decimal digits of a byte (R143). -/
theorem decimalDigits_spec (v : Byte) :
    (BitVec.ofNat 8 (v.toNat / 100)).toNat ≤ 2 ∧ (BitVec.ofNat 8 (v.toNat / 10 % 10)).toNat ≤ 9 ∧
    (BitVec.ofNat 8 (v.toNat % 10)).toNat ≤ 9 ∧
    100 * (BitVec.ofNat 8 (v.toNat / 100)).toNat + 10 * (BitVec.ofNat 8 (v.toNat / 10 % 10)).toNat +
      (BitVec.ofNat 8 (v.toNat % 10)).toNat = v.toNat := by
  have hv := v.isLt
  simp only [BitVec.toNat_ofNat]
  omega

/-- Settles O12: the three digits are one block store from `I`. -/
theorem toDecimalStoresThreeDigits : Obligations.ToDecimalStoresThreeDigits := by
  intro x s h
  obtain ⟨hh, hd, hu, hsum⟩ := decimalDigits_spec (s.reg x)
  have hread : ∀ k (hk : k < 3),
      (s.mem.writeBytes s.index.toNat (decimalDigits (s.reg x))).read (s.elementAddress k) =
        (decimalDigits (s.reg x))[k] :=
    fun k hk => Memory.read_writeBytes (decimalDigits (s.reg x)) s.mem s.index.toNat k hk
  exact ⟨_, _, _, _, exec_toDecimal_fits h, rfl, hread 0 (by decide), hread 1 (by decide),
    hread 2 (by decide), hh, hd, hu, hsum, memKeptOutside_writeBytes s (decimalDigits (s.reg x))⟩

/-- Settles O13: the registers are one block store from `I`. -/
theorem storeRegistersWritesAscendingBytes : Obligations.StoreRegistersWritesAscendingBytes := by
  intro x s h
  refine ⟨_, exec_storeRegisters_fits h, rfl, fun k hk => read_stored_register hk, ?_⟩
  rw [← length_regsUpTo s x]
  exact memKeptOutside_writeBytes s _

/-- Settles O14: a block load writes the registers up to its bound and leaves the others. -/
theorem loadRegistersReadsAscendingBytes : Obligations.LoadRegistersReadsAscendingBytes := by
  intro x s h
  refine ⟨_, exec_loadRegisters_fits h, rfl, fun k hk => ?_, fun k hk => ?_⟩
  · rw [State.reg_setRegsUpTo, if_pos hk]
  · rw [State.reg_setRegsUpTo, if_neg (by omega)]

/-- Settles O15: the load reads at the same addresses, where the store has put the registers. -/
theorem storeThenLoadRestoresTheRegisters : Obligations.StoreThenLoadRestoresTheRegisters := by
  intro x s h
  obtain ⟨t, hstore, hframe, hstored, -⟩ := storeRegistersWritesAscendingBytes x s h
  refine ⟨t, hstore, fun u hmem hindex => ?_⟩
  have haddress : ∀ k, u.elementAddress k = s.elementAddress k := by
    intro k
    rw [State.elementAddress, hindex, hframe]
    rfl
  obtain ⟨v, hload, hv, hloaded, habove⟩ := loadRegistersReadsAscendingBytes x u (by rwa [haddress])
  refine ⟨v, hload, hv, fun k hk => ?_, habove⟩
  rw [hloaded k hk, haddress, hmem, hstored k hk]

end Sys2Proof.Machine
end

section
/-! Calls, returns and the offset jump (42_control_flow.md R151 to R153). -/

namespace Sys2Proof.Machine

theorem exec_pushSubroutine (nnn : Addr12) (s : State) :
    exec (.pushSubroutine nnn) s = execPushSubroutine nnn s := rfl

theorem exec_popSubroutine (s : State) : exec .popSubroutine s = execPopSubroutine s := rfl

theorem exec_jumpWithOffset (nnn : Addr12) (s : State) :
    exec (.jumpWithOffset nnn) s = .next (s.jumpTo (offsetTarget nnn s)) := rfl

theorem exec_pushSubroutine_room {nnn : Addr12} {s : State}
    (h : s.params.stackDepth ≠ some s.stack.length) :
    exec (.pushSubroutine nnn) s = .next ((s.push s.pc).jumpTo (absoluteTarget nnn)) := by
  rcases execPushSubroutine_cases nnn s with ⟨-, e⟩ | ⟨hfull, -⟩
  · rw [exec_pushSubroutine, e]
  · exact absurd hfull h

theorem exec_pushSubroutine_full {nnn : Addr12} {s : State}
    (h : s.params.stackDepth = some s.stack.length) :
    exec (.pushSubroutine nnn) s = raise (.stackOverflow s.stack.length) s := by
  rcases execPushSubroutine_cases nnn s with ⟨hroom, -⟩ | ⟨-, e⟩
  · exact absurd h hroom
  · rw [exec_pushSubroutine, e]

theorem exec_popSubroutine_concat {s : State} {init : List Word} {t : Word}
    (h : s.stack = init ++ [t]) : exec .popSubroutine s = .next { s with stack := init, pc := t } := by
  rcases execPopSubroutine_cases s with ⟨init', t', h', e⟩ | ⟨hempty, -⟩
  · obtain ⟨rfl, hlast⟩ := List.append_inj' (h.symm.trans h') rfl
    cases hlast
    rw [exec_popSubroutine, e]
  · rw [hempty] at h
    exact absurd h.symm (List.concat_ne_nil _ _)

theorem exec_popSubroutine_empty {s : State} (h : s.stack = []) :
    exec .popSubroutine s = raise .stackUnderflow s := by
  rcases execPopSubroutine_cases s with ⟨init, t, h', -⟩ | ⟨-, e⟩
  · rw [h] at h'
    exact absurd h'.symm (List.concat_ne_nil _ _)
  · rw [exec_popSubroutine, e]

/-- Settles O18: the call checks the depth, then appends `pc` and jumps. -/
theorem pushSubroutinePushesTheReturnAddress : Obligations.PushSubroutinePushesTheReturnAddress := by
  intro nnn s
  refine ⟨fun h => ⟨_, exec_pushSubroutine_room h, rfl, toNat_absoluteTarget nnn⟩, fun h => ?_⟩
  rw [Raises, exec_pushSubroutine_full h, raise_eq]

/-- Settles O19: the return takes the last entry, or raises on an empty stack. -/
theorem popSubroutineReturnsOrUnderflows : Obligations.PopSubroutineReturnsOrUnderflows :=
  fun _ => ⟨fun _ _ h => exec_popSubroutine_concat h, fun h => exec_popSubroutine_empty h⟩

/-- Settles O20: the entry the return removes is the one the call appended, the `pc` of the call. -/
theorem returnResumesAfterTheCall : Obligations.ReturnResumesAfterTheCall :=
  fun _ _ h => ⟨_, exec_pushSubroutine_room h, fun _ => exec_popSubroutine_concat rfl⟩

/-- D3: the sum of a 12-bit address and a byte fits 16 bits. -/
theorem toNat_offsetTarget (nnn : Addr12) (s : State) :
    (offsetTarget nnn s).toNat = nnn.toNat + (s.reg 0).toNat := by
  unfold offsetTarget
  bv_omega

/-- Settles O21: `JumpWithOffset` is one jump to the unreduced sum. -/
theorem jumpWithOffsetAddsRegisterZero : Obligations.JumpWithOffsetAddsRegisterZero :=
  fun nnn s => ⟨_, exec_jumpWithOffset nnn s, rfl, toNat_offsetTarget nnn s⟩

end Sys2Proof.Machine
end

section
/-! The key instructions (43_skip.md R165, R166; 44_timers_keys.md R171). -/

namespace Sys2Proof.Machine

/-! ### The key skips -/

theorem exec_skipIfPressed_key {x : RegIdx} {s : State} (h : (s.reg x).toNat ≤ 15) :
    exec (.skipIfPressed x) s =
      .next (s.keypadSample.2.skipIf (s.keypadSample.1.getLsbD (s.reg x).toNat)) := by
  rw [exec_skipIfPressed, withKeyIndex_key _ h]

theorem exec_skipIfNotPressed_key {x : RegIdx} {s : State} (h : (s.reg x).toNat ≤ 15) :
    exec (.skipIfNotPressed x) s =
      .next (s.keypadSample.2.skipIf (!s.keypadSample.1.getLsbD (s.reg x).toNat)) := by
  rw [exec_skipIfNotPressed, withKeyIndex_key _ h]

theorem keypadSample_pc (s : State) : s.keypadSample.2.pc = s.pc := by
  rw [keypadSample_state]

/-- A skip after a keypad sample changes `pc` and what the environment has fixed. -/
theorem skipIf_keypadSample (s : State) (b : Bool) : s.keypadSample.2.skipIf b =
    { s with pc := if b then s.pc + 2 else s.pc,
             keypadAnswers := s.keypadSample.2.keypadAnswers, draws := s.keypadSample.2.draws } := by
  rw [State.skipIf_eq, keypadSample_pc, keypadSample_state]

/-- Settles O24: both skips take one sample and test the same bit of it, one the other's negation. -/
theorem keySkipsTestTheSampledLevel : Obligations.KeySkipsTestTheSampledLevel := by
  intro x s hx
  refine ⟨⟨_, _, exec_skipIfPressed_key hx, exec_skipIfNotPressed_key hx, ?_⟩, fun keys rest h => ?_⟩
  · simp only [skipIf_keypadSample, true_and]
    cases s.keypadSample.1.getLsbD (s.reg x).toNat
    · exact .inr ⟨rfl, rfl⟩
    · exact .inl ⟨rfl, rfl⟩
  · rw [exec_skipIfPressed_key hx, exec_skipIfNotPressed_key hx, keypadSample_answered h]
    refine ⟨fun hkey => ?_, fun hkey => ?_⟩ <;> rw [hkey] <;> exact ⟨rfl, rfl⟩

/-! ### `GetKey` -/

theorem exec_getKey (x : RegIdx) (s : State) :
    exec (.getKey x) s = .next (s.keypadSample.2.takeKey x s.keypadSample.1) := rfl

theorem takeKey_none (s : State) (x : RegIdx) : s.takeKey x 0 = { s with pc := s.pc - 2 } := if_pos rfl

theorem takeKey_pressed (s : State) (x : RegIdx) {keys : BitVec 16} (h : keys ≠ 0) :
    s.takeKey x keys =
      s.keyPreference.2.setReg x ((pickKey keys s.keyPreference.1).setWidth 8) := if_neg h

theorem toNat_keyByte (k : Nibble) : (k.setWidth 8).toNat = k.toNat :=
  BitVec.toNat_setWidth_of_le (by decide)

/-- `GetKey` changes `x[X]`, `pc` and what the environment has fixed. -/
theorem takeKey_state (s : State) (x : RegIdx) (keys : BitVec 16) : s.takeKey x keys =
    { s with regs := (s.takeKey x keys).regs, pc := (s.takeKey x keys).pc,
             keyChoices := (s.takeKey x keys).keyChoices, draws := (s.takeKey x keys).draws } := by
  by_cases h : keys = 0
  · rw [h, takeKey_none]
  · rw [takeKey_pressed s x h, keyPreference_state]
    rfl

/-- Settles O26: on a sample with no key `GetKey` goes back, on any other it writes the number of a
pressed key. -/
theorem getKeyWaitsOrStoresAPressedKey : Obligations.GetKeyWaitsOrStoresAPressedKey := by
  intro x s
  refine ⟨_, exec_getKey x s, ?frame, ?keys⟩
  case frame =>
    rw [takeKey_state, keypadSample_state]
  case keys =>
    by_cases h : s.keypadSample.1 = 0
    · refine .inl ⟨h, ?_⟩
      rw [h, takeKey_none, keypadSample_state]
      exact ⟨rfl, rfl⟩
    · refine .inr ⟨h, ?_⟩
      rw [takeKey_pressed _ x h, State.reg_setReg_same, toNat_keyByte]
      refine ⟨?pc, Nat.lt_succ_iff.mp (BitVec.isLt _), pickKey_pressed _ h, fun r hr => ?kept⟩
      case pc => rw [State.setReg_pc, keyPreference_state, keypadSample_state]
      case kept =>
        rw [regsKeptBut_setReg _ x _ r hr]
        exact State.reg_of_regs (by rw [keyPreference_state, keypadSample_state]) r

/-- Settles O27: the choice under which a pressed key is stored is a preference for that key. -/
theorem getKeyWaitsOnNoKeyAndMayTakeAnyPressedOne :
    Obligations.GetKeyWaitsOnNoKeyAndMayTakeAnyPressedOne := by
  intro x s keys rest h
  refine ⟨fun hkeys => ?_, fun k hk => ⟨[k], _, exec_getKey x _, ?_⟩⟩
  · rw [exec_getKey, keypadSample_answered h, hkeys, takeKey_none]
  · have hkeys : keys ≠ 0 := by
      rintro rfl
      simp at hk
    rw [keypadSample_answered (by exact h), takeKey_pressed _ x hkeys, keyPreference_answered rfl,
      pickKey_of_pressed hk, State.reg_setReg_same, toNat_keyByte]
    exact ⟨rfl, rfl⟩

end Sys2Proof.Machine
end

section
/-! `Display` (45_display.md R181 to R184). -/

namespace Sys2Proof.Machine

/-- The drawn shape is the sprite's bits on the grid (R182). -/
theorem spriteShape_eq_spriteBit (s : State) (x y : RegIdx) (n : Nibble) (col row : Nat) :
    spriteShape (s.spriteColumn x) (s.spriteRow y) (s.mem.readBytes s.index.toNat n.toNat) col row =
      (decide (col < 64 ∧ row < 32) && spriteBit s x y n col row) := by
  unfold spriteShape spriteBit State.spriteColumn State.spriteRow Config.screenColumns Config.screenRows
  rw [Memory.length_readBytes, ← Bool.and_assoc, ← Bool.decide_and]
  by_cases h : (s.reg y).toNat % 32 ≤ row ∧ row - (s.reg y).toNat % 32 < n.toNat
  · have hrow : row - (s.reg y).toNat % 32 <
        (s.mem.readBytes s.index.toNat n.toNat).length := by
      rw [Memory.length_readBytes]
      exact h.2
    rw [← List.getElem_eq_getD (h := hrow), Memory.getElem_readBytes]
    congr 1
    apply decide_eq_decide.mpr
    omega
  · rw [decide_eq_false (by omega), decide_eq_false (by omega), Bool.false_and, Bool.false_and]

theorem drawSprite_draws (s : State) (x y : RegIdx) (n : Nibble) :
    Draws { fb := s.fb, collision := false } (s.drawSprite x y n.toNat)
      fun col row => decide (col < 64 ∧ row < 32) && spriteBit s x y n col row := by
  rw [← funext₂ (spriteShape_eq_spriteBit s x y n)]
  exact plotRows_draw _ _ _ _

/-- The collision flag of a drawn sprite (R183). -/
theorem drawSprite_collision_iff (s : State) (x y : RegIdx) (n : Nibble) :
    (s.drawSprite x y n.toNat).collision = true ↔ SpriteHits s x y n := by
  rw [(drawSprite_draws s x y n).hit]
  constructor
  · rintro (h | ⟨col, row, hpixel, hshape⟩)
    · cases h
    · obtain ⟨hgrid, hbit⟩ := Bool.and_eq_true_iff.mp hshape
      obtain ⟨hcol, hrow⟩ := of_decide_eq_true hgrid
      exact ⟨col, row, hcol, hrow, hpixel, hbit⟩
  · rintro ⟨col, row, hcol, hrow, hpixel, hbit⟩
    exact .inr ⟨col, row, hpixel, Bool.and_eq_true_iff.mpr ⟨decide_eq_true ⟨hcol, hrow⟩, hbit⟩⟩

theorem exec_display_fits {x y : RegIdx} {n : Nibble} {s : State} (h : s.rangeFits n.toNat = true) :
    exec (.display x y n) s = .next ({ s with fb := (s.drawSprite x y n.toNat).fb }.setFlag
      (s.drawSprite x y n.toNat).collision) := by
  rw [exec_display, withRange_fits _ h]

/-- Settles O29: the canvas drawn is the framebuffer with the sprite's bits XORed, and its collision flag
is what VF takes. -/
theorem displayXorsTheClippedSprite : Obligations.DisplayXorsTheClippedSprite := by
  intro x y n s h
  have hfits : s.rangeFits n.toNat = true := by
    rw [rangeFits_iff]
    unfold State.elementAddress at h
    omega
  refine ⟨_, exec_display_fits hfits, rfl, regsKeptBut_setReg _ vf _, ?pixels, ?flag⟩
  case pixels =>
    intro col row hcol hrow
    rw [State.setFlag_eq, State.setReg_fb, (drawSprite_draws s x y n).pixel,
      decide_eq_true ⟨hcol, hrow⟩, Bool.true_and]
  case flag =>
    rw [State.setFlag_eq, State.reg_setReg_same, ← drawSprite_collision_iff]
    cases (s.drawSprite x y n.toNat).collision
    · exact .inr ⟨Bool.false_ne_true, rfl⟩
    · exact .inl ⟨rfl, rfl⟩

/-- A `Display` that ends in no fault had its range in the memory. -/
theorem display_fits_of_completes {x y : RegIdx} {n : Nibble} {s t : State}
    (h : exec (.display x y n) s = .next t) (hstatus : t.status = s.status) (hfree : s.FaultFree) :
    n.toNat = 0 ∨ s.elementAddress (n.toNat - 1) ≤ 4095 := by
  rcases execDisplay_cases x y n s with ⟨hfits, -⟩ | ⟨-, hraise⟩
  · unfold State.elementAddress
    omega
  · cases hraise.symm.trans h
    exact absurd hstatus.symm (hfree _)

/-- A sprite depends on its coordinates, on `I` and on the memory alone. -/
theorem spriteBit_congr {s s' : State} {x y : RegIdx} (n : Nibble) (hx : s'.reg x = s.reg x)
    (hy : s'.reg y = s.reg y) (hindex : s'.index = s.index) (hmem : s'.mem = s.mem) :
    spriteBit s' x y n = spriteBit s x y n := by
  unfold spriteBit
  rw [hx, hy, hindex, hmem]

/-- Settles O30: the same bits XORed twice. -/
theorem doubleDrawRestoresTheFramebuffer : Obligations.DoubleDrawRestoresTheFramebuffer := by
  intro x y n s t s' u hfirst hstatus hfree hfb hx hy hindex hmem hsecond
  have hfits := display_fits_of_completes hfirst hstatus hfree
  have hfits' : n.toNat = 0 ∨ s'.elementAddress (n.toNat - 1) ≤ 4095 := by
    rwa [State.elementAddress, hindex]
  obtain ⟨_, e, -, -, hpixels, -⟩ := displayXorsTheClippedSprite x y n s hfits
  cases e.symm.trans hfirst
  obtain ⟨_, e', -, -, hpixels', hflag⟩ := displayXorsTheClippedSprite x y n s' hfits'
  cases e'.symm.trans hsecond
  refine ⟨Framebuffer.ext_pixel fun col row hcol hrow => ?pixel, ?flag⟩
  case pixel =>
    rw [hpixels' col row hcol hrow, hfb, hpixels col row hcol hrow,
      spriteBit_congr n hx hy hindex hmem, Bool.xor_assoc, Bool.xor_self, Bool.xor_false]
  case flag =>
    rcases hflag with ⟨hhits, hone⟩ | ⟨hmiss, hzero⟩
    · exact iff_of_true hone hhits
    · refine iff_of_false (fun hone => ?_) hmiss
      rw [hzero] at hone
      cases hone

end Sys2Proof.Machine
end

section
/-! What executing an instruction can do, for all instructions at once: it raises the fault R190 gives it
on the fault's condition, or it completes and has changed only what the instruction writes. -/

namespace Sys2Proof.Machine

/-- The conditions on which an instruction raises a fault (R190). -/
def FaultsOn (i : Instr) (s : State) (c : Cause) : Prop :=
  match i with
  | .popSubroutine => c = .stackUnderflow ∧ s.stack = []
  | .pushSubroutine _ =>
    c = .stackOverflow s.stack.length ∧ s.params.stackDepth = some s.stack.length
  | .toDecimal _ => c = .memoryOutOfRange s.index ∧ 4095 < s.index.toNat + 2
  | .storeRegisters x | .loadRegisters x =>
    c = .memoryOutOfRange s.index ∧ 4095 < s.index.toNat + x.toNat
  | .display _ _ n =>
    c = .memoryOutOfRange s.index ∧ 0 < n.toNat ∧ 4095 < s.index.toNat + (n.toNat - 1)
  | .skipIfPressed x | .skipIfNotPressed x =>
    c = .keyIndexOutOfRange (s.reg x) ∧ 15 < (s.reg x).toNat
  | .pointChar x => c = .fontDigitOutOfRange (s.reg x) ∧ 15 < (s.reg x).toNat
  | _ => False

/-- `s` with the pieces of state that the instruction writes as they are in `t` (the writers of each piece
of state, 10_state.md sections 1 to 6). -/
def written (i : Instr) (s t : State) : State :=
  match i with
  | .setRegister _ _ | .addConstant _ _ | .copyRegister _ _ | .or _ _ | .and _ _ | .xOr _ _
  | .add _ _ | .subtractForward _ _ | .subtractBackward _ _ | .rightShift _ | .leftShift _
  | .copyDelayToRegister _ | .loadRegisters _ => { s with regs := t.regs }
  | .random _ _ => { s with regs := t.regs, randomAnswers := t.randomAnswers, draws := t.draws }
  | .getKey _ => { s with regs := t.regs, pc := t.pc, keypadAnswers := t.keypadAnswers,
                          keyChoices := t.keyChoices, draws := t.draws }
  | .skipEqualConstant _ _ | .skipNotEqualConstant _ _ | .skipEqualRegister _ _
  | .skipNotEqualRegister _ _ | .jump _ | .jumpWithOffset _ => { s with pc := t.pc }
  | .skipIfPressed _ | .skipIfNotPressed _ =>
    { s with pc := t.pc, keypadAnswers := t.keypadAnswers, draws := t.draws }
  | .pushSubroutine _ | .popSubroutine => { s with stack := t.stack, pc := t.pc }
  | .setIndex _ | .pointChar _ => { s with index := t.index }
  | .addToIndex _ => { s with index := t.index, regs := t.regs }
  | .copyRegisterToDelay _ => { s with dt := t.dt }
  | .copyRegisterToSound _ => { s with st := t.st }
  | .toDecimal _ | .storeRegisters _ => { s with mem := t.mem }
  | .clearScreen => { s with fb := t.fb }
  | .display _ _ _ => { s with fb := t.fb, regs := t.regs }
  | .unrecognized _ => s

/-- What is said of the writes of an instruction that completes: which registers they leave, where they
take `pc` and the stack, and that they keep the memory canonical. -/
def Effect (i : Instr) (s t : State) : Prop :=
  match i with
  | .setRegister x _ | .addConstant x _ | .copyRegister x _ | .or x _ | .and x _ | .xOr x _
  | .copyDelayToRegister x | .random x _ => RegsKeptBut [x] s t
  | .getKey x => RegsKeptBut [x] s t ∧ (t.pc = s.pc ∨ t.pc = s.pc - 2)
  | .loadRegisters x => ∀ r : RegIdx, x.toNat < r.toNat → t.reg r = s.reg r
  | .addToIndex _ => s.params.quirkAddIndexFlag = false → t.regs = s.regs
  | .skipEqualConstant _ _ | .skipNotEqualConstant _ _ | .skipEqualRegister _ _
  | .skipNotEqualRegister _ _ | .skipIfPressed _ | .skipIfNotPressed _ =>
    t.pc = s.pc ∨ t.pc = s.pc + 2
  | .jump _ | .jumpWithOffset _ => t.pc.toNat ≤ 0x10FE
  | .pushSubroutine _ => s.params.stackDepth ≠ some s.stack.length ∧ t.stack = s.stack ++ [s.pc] ∧
    t.pc.toNat ≤ 0x10FE
  | .popSubroutine => s.stack = t.stack ++ [t.pc]
  | .toDecimal _ | .storeRegisters _ => s.mem.wf = true → t.mem.wf = true
  | _ => True

/-- The instruction took `s` to `t` without a fault. -/
structure Completes (i : Instr) (s t : State) : Prop where
  frame : t = written i s t
  effect : Effect i s t

/-- The instruction took `s` to `t` by raising a fault, which changes `pc` and `status` alone (R191). -/
def RaisesFault (i : Instr) (s t : State) : Prop :=
  ∃ c, FaultsOn i s c ∧ t = { s with pc := s.pc - 2, status := .faulted c }

theorem skipIf_pc_cases (s : State) (b : Bool) : (s.skipIf b).pc = s.pc ∨ (s.skipIf b).pc = s.pc + 2 := by
  cases b
  · exact .inl rfl
  · exact .inr rfl

theorem skipIf_frame (s : State) (b : Bool) : s.skipIf b = { s with pc := (s.skipIf b).pc } := by
  cases b <;> rfl

/-- The key skips complete as a comparing skip does, after a keypad sample. -/
theorem skipIf_keypadSample_completes {i : Instr} (s : State) (b : Bool)
    (h : (∃ x, i = .skipIfPressed x) ∨ ∃ x, i = .skipIfNotPressed x) :
    Completes i s (s.keypadSample.2.skipIf b) := by
  have hpc := skipIf_pc_cases s.keypadSample.2 b
  have hframe := skipIf_keypadSample s b
  rw [keypadSample_pc] at hpc
  rcases h with ⟨x, rfl⟩ | ⟨x, rfl⟩ <;> exact ⟨by rw [hframe]; rfl, hpc⟩

theorem addToIndex_completes {x : RegIdx} {s t : State} (h : exec (.addToIndex x) s = .next t) :
    Completes (.addToIndex x) s t := by
  obtain ⟨_, e, -, hoff, hon⟩ := addToIndexWrapsAndObeysTheQuirk x s
  cases e.symm.trans h
  cases hquirk : s.params.quirkAddIndexFlag with
  | true => exact ⟨(hon hquirk).1, fun hn => by rw [hquirk] at hn; cases hn⟩
  | false =>
    have hregs : t.regs = s.regs := by rw [hoff hquirk]
    exact ⟨by rw [written, hregs]; exact hoff hquirk, fun _ => hregs⟩

theorem getKey_completes {x : RegIdx} {s t : State} (h : exec (.getKey x) s = .next t) :
    Completes (.getKey x) s t := by
  obtain ⟨_, e, hframe, hkeys⟩ := getKeyWaitsOrStoresAPressedKey x s
  cases e.symm.trans h
  rcases hkeys with ⟨-, hpc, hregs⟩ | ⟨-, hpc, -, -, hkept⟩
  · exact ⟨hframe, fun r _ => State.reg_of_regs hregs r, .inr hpc⟩
  · exact ⟨hframe, hkept, .inl hpc⟩

theorem random_completes {x : RegIdx} {nn : Byte} {s t : State}
    (h : exec (.random x nn) s = .next t) : Completes (.random x nn) s t := by
  obtain ⟨⟨_, _, e, -, hkept, hframe⟩, -⟩ := randomMasksAFreeByte x nn s
  cases e.symm.trans h
  exact ⟨hframe, hkept⟩

theorem toNat_addr12_le (nnn : Addr12) : nnn.toNat ≤ 0xFFF := Nat.lt_succ_iff.mp nnn.isLt

/-- Executing an instruction raises a fault on its condition, or completes. -/
theorem exec_cases {i : Instr} {s t : State} (h : exec i s = .next t) :
    RaisesFault i s t ∨ Completes i s t := by
  cases i with
  | setRegister x nn | addConstant x nn | copyRegister x y | or x y | and x y | xOr x y
  | copyDelayToRegister x => cases h; exact .inr ⟨rfl, regsKeptBut_setReg s x _⟩
  | random x nn => exact .inr (random_completes h)
  | getKey x => exact .inr (getKey_completes h)
  | addToIndex x => exact .inr (addToIndex_completes h)
  | skipEqualConstant x nn | skipNotEqualConstant x nn | skipEqualRegister x y
  | skipNotEqualRegister x y => cases h; exact .inr ⟨skipIf_frame s _, skipIf_pc_cases s _⟩
  | skipIfPressed x =>
    rcases execSkipIfPressed_cases x s with ⟨-, e⟩ | ⟨hx, e⟩ <;> cases e.symm.trans h
    · exact .inr (skipIf_keypadSample_completes s _ (.inl ⟨x, rfl⟩))
    · exact .inl ⟨_, ⟨rfl, hx⟩, rfl⟩
  | skipIfNotPressed x =>
    rcases execSkipIfNotPressed_cases x s with ⟨-, e⟩ | ⟨hx, e⟩ <;> cases e.symm.trans h
    · exact .inr (skipIf_keypadSample_completes s _ (.inr ⟨x, rfl⟩))
    · exact .inl ⟨_, ⟨rfl, hx⟩, rfl⟩
  | pointChar x =>
    rcases execPointChar_cases x s with ⟨-, e⟩ | ⟨hx, e⟩ <;> cases e.symm.trans h
    · exact .inr ⟨rfl, trivial⟩
    · exact .inl ⟨_, ⟨rfl, hx⟩, rfl⟩
  | jump nnn =>
    cases h
    exact .inr ⟨rfl, (toNat_absoluteTarget nnn).trans_le ((toNat_addr12_le nnn).trans (by decide))⟩
  | jumpWithOffset nnn =>
    have hsum : (s.reg 0).toNat ≤ 0xFF := Nat.lt_succ_iff.mp (s.reg 0).isLt
    cases h
    exact .inr ⟨rfl, (toNat_offsetTarget nnn s).trans_le (Nat.add_le_add (toNat_addr12_le nnn) hsum)⟩
  | pushSubroutine nnn =>
    rcases execPushSubroutine_cases nnn s with ⟨hroom, e⟩ | ⟨hfull, e⟩ <;> cases e.symm.trans h
    · exact .inr ⟨rfl, hroom, rfl,
        (toNat_absoluteTarget nnn).trans_le ((toNat_addr12_le nnn).trans (by decide))⟩
    · exact .inl ⟨_, ⟨rfl, hfull⟩, rfl⟩
  | popSubroutine =>
    rcases execPopSubroutine_cases s with ⟨init, last, hstack, e⟩ | ⟨hempty, e⟩ <;> cases e.symm.trans h
    · exact .inr ⟨rfl, hstack⟩
    · exact .inl ⟨_, ⟨rfl, hempty⟩, rfl⟩
  | toDecimal x =>
    rcases execToDecimal_cases x s with ⟨hfits, e⟩ | ⟨hout, e⟩ <;> cases e.symm.trans h
    · exact .inr ⟨rfl, Memory.wf_writeBytes (decimalDigits (s.reg x)) hfits⟩
    · exact .inl ⟨_, ⟨rfl, by omega⟩, rfl⟩
  | storeRegisters x =>
    rcases execStoreRegisters_cases x s with ⟨hfits, e⟩ | ⟨hout, e⟩ <;> cases e.symm.trans h
    · rw [← length_regsUpTo s x] at hfits
      exact .inr ⟨rfl, Memory.wf_writeBytes (s.regsUpTo x) hfits⟩
    · exact .inl ⟨_, ⟨rfl, by omega⟩, rfl⟩
  | loadRegisters x =>
    rcases execLoadRegisters_cases x s with ⟨-, e⟩ | ⟨hout, e⟩ <;> cases e.symm.trans h
    · exact .inr ⟨rfl, fun r hr => by rw [State.reg_setRegsUpTo, if_neg (by omega)]⟩
    · exact .inl ⟨_, ⟨rfl, by omega⟩, rfl⟩
  | display x y n =>
    rcases execDisplay_cases x y n s with ⟨-, e⟩ | ⟨⟨hout, hn⟩, e⟩ <;> cases e.symm.trans h
    · exact .inr ⟨rfl, trivial⟩
    · exact .inl ⟨_, ⟨rfl, hn, by omega⟩, rfl⟩
  | _ => cases h; exact .inr ⟨rfl, trivial⟩

end Sys2Proof.Machine
end

section
/-! Which instruction changes what, and which raises which fault (10_state.md sections 1 to 9,
60_exceptions.md section 1). -/

namespace Sys2Proof.Machine

/-! ### What the writes of an instruction leave -/

theorem written_kept (i : Instr) (s t : State) :
    (written i s t).loadEnd = s.loadEnd ∧ (written i s t).params = s.params ∧
    (written i s t).shown = s.shown ∧ (written i s t).schedule = s.schedule ∧
    (written i s t).status = s.status := by
  cases i <;> exact ⟨rfl, rfl, rfl, rfl, rfl⟩

theorem kept_of_completes {i : Instr} {s t : State} (h : Completes i s t) :
    t.loadEnd = s.loadEnd ∧ t.params = s.params ∧ t.shown = s.shown ∧ t.schedule = s.schedule ∧
    t.status = s.status := by
  have hkept := written_kept i s t
  rwa [← h.frame] at hkept

theorem written_mem (i : Instr) (s t : State) :
    (∃ x, i = .toDecimal x) ∨ (∃ x, i = .storeRegisters x) ∨ (written i s t).mem = s.mem := by
  cases i with
  | toDecimal x => exact .inl ⟨x, rfl⟩
  | storeRegisters x => exact .inr (.inl ⟨x, rfl⟩)
  | _ => exact .inr (.inr rfl)

theorem written_index {i : Instr} {s t : State} (h : (written i s t).index ≠ s.index) :
    (∃ nnn, i = .setIndex nnn) ∨ (∃ x, i = .addToIndex x) ∨ ∃ x, i = .pointChar x := by
  cases i with
  | setIndex nnn => exact .inl ⟨nnn, rfl⟩
  | addToIndex x => exact .inr (.inl ⟨x, rfl⟩)
  | pointChar x => exact .inr (.inr ⟨x, rfl⟩)
  | _ => exact absurd rfl h

theorem written_stack {i : Instr} {s t : State} (h : (written i s t).stack ≠ s.stack) :
    (∃ nnn, i = .pushSubroutine nnn) ∨ i = .popSubroutine := by
  cases i with
  | pushSubroutine nnn => exact .inl ⟨nnn, rfl⟩
  | popSubroutine => exact .inr rfl
  | _ => exact absurd rfl h

theorem written_dt {i : Instr} {s t : State} (h : (written i s t).dt ≠ s.dt) :
    ∃ x, i = .copyRegisterToDelay x := by
  cases i with
  | copyRegisterToDelay x => exact ⟨x, rfl⟩
  | _ => exact absurd rfl h

theorem written_st {i : Instr} {s t : State} (h : (written i s t).st ≠ s.st) :
    ∃ x, i = .copyRegisterToSound x := by
  cases i with
  | copyRegisterToSound x => exact ⟨x, rfl⟩
  | _ => exact absurd rfl h

theorem written_fb {i : Instr} {s t : State} (h : (written i s t).fb ≠ s.fb) :
    i = .clearScreen ∨ ∃ x y n, i = .display x y n := by
  cases i with
  | clearScreen => exact .inl rfl
  | display x y n => exact .inr ⟨x, y, n, rfl⟩
  | _ => exact absurd rfl h

/-- Settles O32: a fault changes `pc` and `status` alone, and of the instructions that complete only the
two stores write memory, none the rest. -/
theorem onlyStoresChangeMemory : Obligations.OnlyStoresChangeMemory := by
  intro i s t h
  rcases exec_cases h with ⟨c, -, rfl⟩ | hcompletes
  · exact ⟨.inr (.inr rfl), rfl, rfl, rfl, rfl⟩
  · obtain ⟨hloadEnd, hparams, hshown, hschedule, -⟩ := kept_of_completes hcompletes
    have hmem := written_mem i s t
    rw [← hcompletes.frame] at hmem
    exact ⟨hmem, hloadEnd, hparams, hshown, hschedule⟩

/-- Settles O34: a fault changes none of the five, and of the instructions that complete each is written
by its own. -/
theorem eachUnitHasItsOwnWriters : Obligations.EachUnitHasItsOwnWriters := by
  intro i s t h
  rcases exec_cases h with ⟨c, -, rfl⟩ | ⟨hframe, -⟩
  · exact ⟨(absurd rfl ·), (absurd rfl ·), (absurd rfl ·), (absurd rfl ·), (absurd rfl ·)⟩
  · rw [hframe]
    exact ⟨written_index, written_stack, written_dt, written_st, written_fb⟩

/-! ### The flag register -/

theorem eq_of_regsKeptBut_of_ne {x r : RegIdx} {s t : State} (hkept : RegsKeptBut [x] s t)
    (hr : t.reg r ≠ s.reg r) : x = r := by
  by_contra hx
  exact hr (hkept r (List.not_mem_cons_of_ne_of_not_mem (Ne.symm hx) List.not_mem_nil))

/-- Settles O31: a fault changes no register, and an instruction that completes leaves VF unless it writes
a flag or names it. -/
theorem onlyTheListedInstructionsWriteVF : Obligations.OnlyTheListedInstructionsWriteVF := by
  intro i s t h hvf
  rcases exec_cases h with ⟨c, -, rfl⟩ | ⟨hframe, heffect⟩
  · exact absurd rfl hvf
  cases i with
  | setRegister x _ | addConstant x _ | copyRegister x _ | or x _ | and x _ | xOr x _ | random x _
  | copyDelayToRegister x => exact eq_of_regsKeptBut_of_ne heffect hvf
  | getKey x => exact eq_of_regsKeptBut_of_ne heffect.1 hvf
  | loadRegisters x =>
    have hx : ¬x.toNat < vf.toNat := fun hlt => hvf (heffect vf hlt)
    have hmax : vf.toNat = 15 := rfl
    exact BitVec.eq_of_toNat_eq (by omega)
  | addToIndex x =>
    refine (Bool.not_eq_false _).mp fun hquirk => ?_
    exact hvf (State.reg_of_regs (heffect hquirk) vf)
  | add | subtractForward | subtractBackward | rightShift | leftShift | display => trivial
  | _ =>
    rw [hframe] at hvf
    exact hvf rfl

/-! ### Faults and the program counter -/

theorem status_of_completes {i : Instr} {s t : State} (h : Completes i s t) : t.status = s.status := by
  obtain ⟨-, -, -, -, hstatus⟩ := kept_of_completes h
  exact hstatus

/-- Settles O35: an instruction that completes keeps the status, so the fault is one it raised, on the
condition it has for it. -/
theorem faultsComeFromTheirInstructions : Obligations.FaultsComeFromTheirInstructions := by
  intro i s t c h hfree hstatus
  rcases exec_cases h with ⟨c', hon, rfl⟩ | hcompletes
  · cases hstatus
    cases i with
    | popSubroutine =>
      obtain ⟨rfl, hempty⟩ := hon
      exact ⟨rfl, hempty⟩
    | pushSubroutine nnn =>
      obtain ⟨rfl, hfull⟩ := hon
      exact ⟨⟨nnn, rfl⟩, hfull, rfl⟩
    | toDecimal x =>
      obtain ⟨rfl, hout⟩ := hon
      exact ⟨rfl, .inl ⟨x, rfl, hout⟩⟩
    | storeRegisters x =>
      obtain ⟨rfl, hout⟩ := hon
      exact ⟨rfl, .inr (.inl ⟨x, rfl, hout⟩)⟩
    | loadRegisters x =>
      obtain ⟨rfl, hout⟩ := hon
      exact ⟨rfl, .inr (.inr (.inl ⟨x, rfl, hout⟩))⟩
    | display x y n =>
      obtain ⟨rfl, hn, hout⟩ := hon
      exact ⟨rfl, .inr (.inr (.inr ⟨x, y, n, rfl, hn, hout⟩))⟩
    | skipIfPressed x =>
      obtain ⟨rfl, hx⟩ := hon
      exact ⟨hx, x, rfl, .inl rfl⟩
    | skipIfNotPressed x =>
      obtain ⟨rfl, hx⟩ := hon
      exact ⟨hx, x, rfl, .inr rfl⟩
    | pointChar x =>
      obtain ⟨rfl, hx⟩ := hon
      exact ⟨hx, x, rfl, rfl⟩
    | _ => exact hon.elim
  · exact absurd ((status_of_completes hcompletes).symm.trans hstatus) (hfree c)

/-- Settles O33: a fault takes `pc` back, and of the instructions that complete only the transfers, the
skips and `GetKey` write it. -/
theorem onlyTransfersChangeThePc : Obligations.OnlyTransfersChangeThePc := by
  intro i s t h _ hpc
  rcases exec_cases h with ⟨c, hon, rfl⟩ | ⟨hframe, heffect⟩
  · have hfaulted : ¬State.FaultFree { s with pc := s.pc - 2, status := .faulted c } :=
      fun hfree => hfree c rfl
    cases i with
    | popSubroutine | pushSubroutine => trivial
    | skipIfPressed | skipIfNotPressed => exact .inr ⟨rfl, hfaulted⟩
    | pointChar | toDecimal | storeRegisters | loadRegisters | display => exact ⟨rfl, hfaulted⟩
    | _ => exact hon.elim
  · cases i with
    | jump | pushSubroutine | popSubroutine | jumpWithOffset => trivial
    | skipEqualConstant | skipNotEqualConstant | skipEqualRegister | skipNotEqualRegister =>
      exact heffect.resolve_left hpc
    | skipIfPressed | skipIfNotPressed => exact .inl (heffect.resolve_left hpc)
    | getKey => exact heffect.2.resolve_left hpc
    | _ =>
      rw [hframe] at hpc
      exact absurd rfl hpc

end Sys2Proof.Machine
end

section
/-! The CPU step (30_encoding.md R103) and what a step can do (60_exceptions.md R190 to R205). -/

namespace Sys2Proof.Machine

/-! ### The CPU step on its turn -/

/-- The state with the move that is to run taken off the schedule. -/
def State.moved (s : State) : State := { s with schedule := s.schedule.tail }

theorem moved_eq_of_cpuMoves {s : State} {rest : List Event} (h : s.CpuMoves rest) :
    s.moved = { s with schedule := rest } := by
  rcases h with h | ⟨h, rfl⟩ <;> rw [State.moved, h] <;> rfl

/-- On its turn in a `Running` core the CPU steps. -/
theorem step_of_cpuMoves {s : State} {rest : List Event} (hrunning : s.status = .running)
    (h : s.CpuMoves rest) : step s = cpuStep { s with schedule := rest } :=
  (step_cpu h).trans (whileRunning_running cpuStep hrunning)

theorem step_of_fetches {s : State} {rest : List Event} (hrunning : s.status = .running)
    (h : s.CpuMoves rest) (hfetches : s.Fetches) :
    step s = exec (decodeWord (s.wordAt s.pc.toNat)) { s with pc := s.pc + 2, schedule := rest } :=
  (step_of_cpuMoves hrunning h).trans (cpuStep_fetches (s := { s with schedule := rest }) hfetches)

/-- Settles O38: the word of the two bytes is the word fetched. -/
theorem stepRunsTheDecodedInstruction : Obligations.StepRunsTheDecodedInstruction := by
  intro s rest i hrunning hturn hfetches hdecode
  cases hdecode
  exact step_of_fetches hrunning hturn hfetches

/-- R103 line 1: the first test of the fetch check fails. -/
theorem cpuStep_illegal_pc {s : State} (h : s.pc.toNat % 2 = 1 ∨ s.pc.toNat < 0x200) :
    cpuStep s = .next { s with status := .faulted (.pcInvariantFault s.pc) } := by
  rcases cpuStep_cases s with ⟨-, e⟩ | ⟨heven, hlow, -, -⟩ | ⟨⟨heven, hlow, -⟩, -⟩
  · exact e
  · omega
  · omega

/-- R103 line 2: the first test passes and the second fails. -/
theorem cpuStep_past_loadEnd {s : State} (heven : s.pc.toNat % 2 = 0) (hlow : 0x200 ≤ s.pc.toNat)
    (hend : s.loadEnd.toNat < s.pc.toNat + 2) : cpuStep s = .next { s with status := .halted } := by
  rcases cpuStep_cases s with ⟨hpc, -⟩ | ⟨-, -, -, e⟩ | ⟨⟨-, -, hfetches⟩, -⟩
  · exact absurd ⟨heven, hlow⟩ hpc
  · exact e
  · omega

/-- Settles O39: the two tests of the fetch check, in their order. -/
theorem fetchCheckComesBeforeTheFetch : Obligations.FetchCheckComesBeforeTheFetch :=
  fun s rest hrunning hturn =>
    ⟨fun hpc => (step_of_cpuMoves hrunning hturn).trans
        (cpuStep_illegal_pc (s := { s with schedule := rest }) hpc),
      fun heven hlow hend => (step_of_cpuMoves hrunning hturn).trans
        (cpuStep_past_loadEnd (s := { s with schedule := rest }) heven hlow hend)⟩

/-- Settles O22: no row takes the word, so it decodes to `Unrecognized`, whose execution changes nothing. -/
theorem unrecognizedWordsDoNothing : Obligations.UnrecognizedWordsDoNothing := by
  intro s rest w hw
  refine ⟨rfl, fun hrunning hturn hfetches hword => ?_⟩
  rw [step_of_fetches hrunning hturn hfetches, State.wordAt, hword, decodeWord_of_not_isDefinedWord hw]
  rfl

/-! ### Code that is stored or placed -/

/-- Settles O41: the two bytes at `I` are the first two the block store has put there. -/
theorem storedCodeIsFetchedNext : Obligations.StoredCodeIsFetchedNext := by
  intro x s rest hfits hx
  obtain ⟨t, hstore, -, hstored, -⟩ := storeRegistersWritesAscendingBytes x s hfits
  refine ⟨t, hstore, fun hrunning hturn hfetches hpc => ?_⟩
  have hword : t.wordAt t.pc.toNat = wordOfBytes (s.reg 0) (s.reg 1) := by
    rw [hpc, ← hstored 0 (Nat.zero_le _), ← hstored 1 hx]
    rfl
  rw [step_of_fetches hrunning hturn hfetches, hword]

theorem withFetchWord_fetches (s : State) (nbits w : Nat) : (s.withFetchWord nbits w).Fetches := by
  obtain ⟨heven, hlow, hhigh⟩ := fetchAddress_spec s
  refine ⟨heven, hlow, ?_⟩
  unfold State.withFetchWord
  dsimp only
  split
  · assumption
  · rw [BitVec.toNat_ofNat]
    omega

/-- The memory and the load end that `withFetchWord` gives, in a core ready to execute past the word. -/
def State.afterFetchWord (s : State) (nbits w : Nat) : State :=
  { s with
    pc := s.fetchAddress + 2
    mem := (s.withFetchWord nbits w).mem
    loadEnd := (s.withFetchWord nbits w).loadEnd
    status := .running }

theorem step_withFetchWord (s : State) (nbits w : Nat) : step (s.withFetchWord nbits w) =
    exec (decodeWord (tableWord nbits w)) (s.afterFetchWord nbits w) := by
  have hword : (s.withFetchWord nbits w).wordAt s.fetchAddress.toNat = tableWord nbits w :=
    wordAt_write rfl
  rw [step_of_fetches rfl (.inl rfl) (withFetchWord_fetches s nbits w)]
  exact congrArg (fun w => exec (decodeWord w) _) hword

/-- Settles O42: the word placed is the word fetched, and only its two bytes are written. -/
theorem withFetchWordRunsTheWord : Obligations.WithFetchWordRunsTheWord := by
  intro s nbits w
  refine ⟨s.afterFetchWord nbits w, step_withFetchWord s nbits w, rfl, fun a ha => ?bytes, ?loadEnd⟩
  case bytes =>
    refine (Memory.read_write_of_ne _ _ ?_).trans (Memory.read_write_of_ne _ _ ?_) <;> omega
  case loadEnd =>
    obtain ⟨-, -, hhigh⟩ := fetchAddress_spec s
    unfold State.afterFetchWord State.withFetchWord
    dsimp only
    split
    · rfl
    · rw [BitVec.toNat_ofNat]
      omega

/-! ### What a step can do -/

/-- A fault an instruction raises records what holds of the state its fetch began in (R190). -/
theorem describes_of_faultsOn {i : Instr} {s : State} {c : Cause} (h : FaultsOn i s.advance c) :
    c.Describes s := by
  cases i with
  | popSubroutine =>
    obtain ⟨rfl, hempty⟩ := h
    exact hempty
  | pushSubroutine nnn =>
    obtain ⟨rfl, hfull⟩ := h
    exact ⟨rfl, hfull⟩
  | toDecimal x =>
    obtain ⟨rfl, hout⟩ := h
    exact ⟨rfl, hout.trans (Nat.add_lt_add_left (by decide) _)⟩
  | storeRegisters x | loadRegisters x =>
    obtain ⟨rfl, hout⟩ := h
    have hx := x.isLt
    refine ⟨rfl, ?_⟩
    rw [State.advance_index] at hout ⊢
    omega
  | display x y n =>
    obtain ⟨rfl, -, hout⟩ := h
    have hn := n.isLt
    refine ⟨rfl, ?_⟩
    rw [State.advance_index] at hout ⊢
    omega
  | skipIfPressed x | skipIfNotPressed x | pointChar x =>
    obtain ⟨rfl, hx⟩ := h
    exact hx
  | _ => exact h.elim

/-- What a CPU step that answers a next state has done: met a fault, of the fetch or of the instruction,
which changes the status alone; ended the run; or executed an instruction to its end. -/
theorem cpuStep_next {s t : State} (h : cpuStep s = .next t) :
    (∃ c, c.Describes s ∧ t = { s with status := .faulted c }) ∨
    (s.pc.toNat % 2 = 0 ∧ 0x200 ≤ s.pc.toNat ∧ s.loadEnd.toNat < s.pc.toNat + 2 ∧
      t = { s with status := .halted }) ∨
    (s.Fetches ∧ Completes (decodeWord (s.wordAt s.pc.toNat)) s.advance t) := by
  rcases cpuStep_cases s with ⟨hpc, e⟩ | ⟨heven, hlow, hend, e⟩ | ⟨hfetches, e⟩
  · cases e.symm.trans h
    exact .inl ⟨.pcInvariantFault s.pc, ⟨rfl, by omega⟩, rfl⟩
  · cases e.symm.trans h
    exact .inr (.inl ⟨heven, hlow, hend, rfl⟩)
  · rcases exec_cases (e.symm.trans h) with ⟨c, hon, rfl⟩ | hcompletes
    · refine .inl ⟨c, describes_of_faultsOn hon, ?_⟩
      rw [State.advance_pc, BitVec.add_sub_cancel]
      rfl
    · exact .inr (.inr ⟨hfetches, hcompletes⟩)

/-- What a step that answers a next state was: a CPU step, a tick or a refresh in a `Running` core, a load
in an `Unloaded` one, or a reset. -/
theorem step_next {s t : State} (h : step s = .next t) :
    (s.CpuMoves s.schedule.tail ∧ s.status = .running ∧ cpuStep s.moved = .next t) ∨
    (s.status = .running ∧ (t = s.moved.tickDelay ∨ t = s.moved.tickSound ∨ t = s.moved.refresh)) ∨
    (∃ program, s.status = .unloaded ∧ t = s.moved.loadProgram program) ∨
    (∃ rest, s.schedule = .reset :: rest ∧ t = s.moved.hostReset) := by
  cases hs : s.schedule with
  | nil =>
    have hturn : s.CpuMoves [] := .inr ⟨hs, rfl⟩
    rw [step_cpu hturn, ← moved_eq_of_cpuMoves hturn] at h
    exact .inl ⟨hturn, whileRunning_next h⟩
  | cons e rest =>
    have hmoved : s.moved = { s with schedule := rest } := by rw [State.moved, hs]; rfl
    rw [step_event hs, ← hmoved] at h
    rcases runEvent_next h with ⟨rfl, hr, ht⟩ | ⟨rfl, hr, ht⟩ | ⟨rfl, hr, ht⟩ | ⟨rfl, hr, ht⟩ |
      ⟨program, rfl, hu, ht⟩ | ⟨rfl, ht⟩
    · exact .inl ⟨.inl hs, hr, ht⟩
    · exact .inr (.inl ⟨hr, .inl ht⟩)
    · exact .inr (.inl ⟨hr, .inr (.inl ht)⟩)
    · exact .inr (.inl ⟨hr, .inr (.inr ht)⟩)
    · exact .inr (.inr (.inl ⟨program, hu, ht⟩))
    · exact .inr (.inr (.inr ⟨rest, rfl, ht⟩))

/-- A tick or a refresh keeps the status. -/
theorem status_of_tick_or_refresh {s t : State}
    (h : t = s.moved.tickDelay ∨ t = s.moved.tickSound ∨ t = s.moved.refresh) :
    t.status = s.status := by
  rcases h with rfl | rfl | rfl <;> rfl

theorem loadProgram_status (s : State) (program : List Byte) :
    (s.loadProgram program).status = .running ∨ (s.loadProgram program).status = .loadFailed := by
  unfold State.loadProgram
  split
  · exact .inl rfl
  · exact .inr rfl

/-- A step that leaves the core `Halted` or `Faulted` is a CPU step of a `Running` one. -/
theorem cpu_of_step_stops {s t : State} (h : step s = .next t)
    (hstop : t.status = .halted ∨ ∃ c, t.status = .faulted c) :
    s.CpuMoves s.schedule.tail ∧ s.status = .running ∧ cpuStep s.moved = .next t := by
  rcases step_next h with hcpu | ⟨hr, hmove⟩ | ⟨program, -, rfl⟩ | ⟨rest, -, rfl⟩
  · exact hcpu
  · rw [status_of_tick_or_refresh hmove, hr] at hstop
    rcases hstop with hstop | ⟨c, hstop⟩ <;> cases hstop
  · rcases loadProgram_status s.moved program with hload | hload <;> rw [hload] at hstop <;>
      rcases hstop with hstop | ⟨c, hstop⟩ <;> cases hstop
  · rcases hstop with hstop | ⟨c, hstop⟩ <;> cases hstop

/-- Settles O36: only a CPU step ends in `Faulted`, and the fault it meets changes the status alone. -/
theorem faultingStepsChangeOnlyTheStatus : Obligations.FaultingStepsChangeOnlyTheStatus := by
  intro s t c h hstatus
  obtain ⟨-, hrunning, hcpu⟩ := cpu_of_step_stops h (.inr ⟨c, hstatus⟩)
  rcases cpuStep_next hcpu with ⟨c', -, rfl⟩ | ⟨-, -, -, rfl⟩ | ⟨-, hcompletes⟩
  · cases hstatus
    rfl
  · cases hstatus
  · rw [status_of_completes hcompletes] at hstatus
    cases hrunning.symm.trans hstatus

/-- Settles O40: only a CPU step ends in `Halted`, by the termination test of its fetch. -/
theorem haltedIsReachedOnlyAtTheLoadEnd : Obligations.HaltedIsReachedOnlyAtTheLoadEnd := by
  intro s t h hstatus
  obtain ⟨hturn, hrunning, hcpu⟩ := cpu_of_step_stops h (.inl hstatus)
  rcases cpuStep_next hcpu with ⟨c, -, rfl⟩ | ⟨heven, hlow, hend, rfl⟩ | ⟨-, hcompletes⟩
  · cases hstatus
  · exact ⟨s.schedule.tail, hturn, hrunning, heven, hlow, hend, rfl⟩
  · rw [status_of_completes hcompletes] at hstatus
    cases hrunning.symm.trans hstatus

theorem status_of_runOver {s : State} (h : s.RunOver) : s.status ≠ .running ∧ s.status ≠ .unloaded := by
  rcases h with h | h | ⟨c, h⟩ <;> rw [h] <;> exact ⟨nofun, nofun⟩

/-- Settles O37: every other step needs the core `Running` or `Unloaded`. -/
theorem onlyAResetLeavesAnEndedRun : Obligations.OnlyAResetLeavesAnEndedRun := by
  intro s t hover h
  obtain ⟨hnotRunning, hnotUnloaded⟩ := status_of_runOver hover
  rcases step_next h with ⟨-, hr, -⟩ | ⟨hr, -⟩ | ⟨program, hu, -⟩ | ⟨rest, hs, -⟩
  · exact absurd hr hnotRunning
  · exact absurd hr hnotRunning
  · exact absurd hu hnotUnloaded
  · exact ⟨rest, hs⟩

end Sys2Proof.Machine
end

section
/-! The timers, the refresh and who may change what (60_exceptions.md R200 to R204, 10_state.md section
12). -/

namespace Sys2Proof.Machine

/-! ### The ticks and the refresh on their turn -/

theorem toNat_countDown (t : Byte) : (countDown t).toNat = t.toNat - 1 := by
  unfold countDown
  split <;> bv_omega

theorem step_tickDelay {s : State} {rest : List Event} (hr : s.status = .running)
    (hs : s.schedule = .tickDelay :: rest) :
    step s = .next { s with dt := countDown s.dt, schedule := rest } :=
  (step_event hs).trans (whileRunning_running (fun s => .next s.tickDelay) hr)

theorem step_tickSound {s : State} {rest : List Event} (hr : s.status = .running)
    (hs : s.schedule = .tickSound :: rest) :
    step s = .next { s with st := countDown s.st, schedule := rest } :=
  (step_event hs).trans (whileRunning_running (fun s => .next s.tickSound) hr)

/-- Settles O46: the refresh is enabled in a `Running` core. -/
theorem refreshShowsTheFramebuffer : Obligations.RefreshShowsTheFramebuffer :=
  fun _ _ hr hs => (step_event hs).trans (whileRunning_running (fun s => .next s.refresh) hr)

/-- Settles O43: each tick counts its timer down by one, stopping at 0. -/
theorem ticksCountOneTimerDown : Obligations.TicksCountOneTimerDown :=
  fun s _ hr =>
    ⟨fun hs => ⟨_, step_tickDelay hr hs, rfl, toNat_countDown s.dt⟩,
      fun hs => ⟨_, step_tickSound hr hs, rfl, toNat_countDown s.st⟩⟩

/-! ### Runs -/

theorem run_succ {s t : State} (h : step s = .next t) (n : Nat) :
    Host.Core.run core (n + 1) s = Host.Core.run core n t := by
  simp only [Host.Core.run, show core.step s = .next t from h]

/-- Settles O44, by induction on the number of ticks. -/
theorem timerReachesZeroAndStays : Obligations.TimerReachesZeroAndStays := by
  intro n
  induction n with
  | zero =>
    intro s rest _ hs
    refine ⟨s, rfl, ?_, rfl⟩
    rw [← show s.schedule = rest from hs]
  | succ n ih =>
    intro s rest hr hs
    obtain ⟨t, hrun, hframe, hdt⟩ :=
      ih { s with dt := countDown s.dt, schedule := List.replicate n .tickDelay ++ rest } rest hr rfl
    refine ⟨t, (run_succ (step_tickDelay hr hs) n).trans hrun, hframe, ?_⟩
    rw [hdt, toNat_countDown]
    omega

/-! ### Who may change what -/

theorem cpuStep_kept {s t : State} (h : cpuStep s = .next t) :
    t.loadEnd = s.loadEnd ∧ t.params = s.params ∧ t.shown = s.shown ∧ t.schedule = s.schedule := by
  rcases cpuStep_next h with ⟨c, -, rfl⟩ | ⟨-, -, -, rfl⟩ | ⟨-, hcompletes⟩
  · exact ⟨rfl, rfl, rfl, rfl⟩
  · exact ⟨rfl, rfl, rfl, rfl⟩
  · obtain ⟨hloadEnd, hparams, hshown, hschedule, -⟩ := kept_of_completes hcompletes
    exact ⟨hloadEnd, hparams, hshown, hschedule⟩

theorem loadProgram_frame (s : State) (program : List Byte) : s.loadProgram program =
    { s with
      mem := (s.loadProgram program).mem
      loadEnd := (s.loadProgram program).loadEnd
      pc := (s.loadProgram program).pc
      status := (s.loadProgram program).status } := by
  unfold State.loadProgram
  split <;> rfl

/-- Settles O48, agent by agent. -/
theorem agentsChangeOnlyTheirOwnState : Obligations.AgentsChangeOnlyTheirOwnState := by
  intro s t e rest hs h
  rw [step_event hs] at h
  rcases runEvent_next h with ⟨rfl, -, hcpu⟩ | ⟨rfl, -, rfl⟩ | ⟨rfl, -, rfl⟩ | ⟨rfl, -, rfl⟩ |
    ⟨program, rfl, -, rfl⟩ | ⟨rfl, rfl⟩
  · exact cpuStep_kept hcpu
  · rfl
  · rfl
  · rfl
  · exact loadProgram_frame _ program
  · exact ⟨rfl, rfl, rfl⟩

/-- Settles O47: the CPU step leaves the ticks and the refresh on the schedule, and each of them the core
`Running`. -/
theorem loopIterationRunsInOrder : Obligations.LoopIterationRunsInOrder := by
  intro s t rest hr hs hcpu hrt
  obtain ⟨-, -, -, hst⟩ := agentsChangeOnlyTheirOwnState s t .cpu _ hs hcpu
  rw [run_succ hcpu, run_succ (step_tickDelay hrt hst), run_succ (step_tickSound (by exact hrt) rfl),
    run_succ (refreshShowsTheFramebuffer _ rest (by exact hrt) rfl)]
  rfl

end Sys2Proof.Machine
end

section
/-! Load and reset (70_reset_and_hazards.md R220 to R223). -/

namespace Sys2Proof.Machine

open Sys2Proof.Config

theorem programFits_iff (program : List Byte) :
    programFits program = true ↔ 0x200 + program.length ≤ 4096 := decide_eq_true_iff

theorem loadProgram_fits (s : State) {program : List Byte} (h : 0x200 + program.length ≤ 4096) :
    s.loadProgram program = { s with
      mem := s.mem.writeBytes 0x200 program
      loadEnd := BitVec.ofNat 13 (0x200 + program.length)
      pc := 0x200
      status := .running } :=
  if_pos ((programFits_iff program).mpr h)

theorem loadProgram_too_large (s : State) {program : List Byte} (h : 4096 < 0x200 + program.length) :
    s.loadProgram program = { s with status := .loadFailed } :=
  if_neg fun hfits => absurd ((programFits_iff program).mp hfits) (Nat.not_le.mpr h)

theorem hostLoad_unloaded {s : State} (program : List Byte) (h : s.status = .unloaded) :
    hostLoad s program = .next (s.loadProgram program) := by
  rw [hostLoad, h]

theorem hostLoad_refused {s : State} (program : List Byte) (h : s.status ≠ .unloaded) :
    hostLoad s program = .refused .loadNotEnabled := by
  unfold hostLoad
  split
  · next hu => exact absurd hu h
  all_goals rfl

theorem toNat_loadEnd {n : Nat} (h : 0x200 + n ≤ 4096) :
    (BitVec.ofNat 13 (0x200 + n)).toNat = 0x200 + n := by
  rw [BitVec.toNat_ofNat]
  omega

/-- Settles O49: the load is one block store of the program at 0x200. -/
theorem loadCopiesTheProgram : Obligations.LoadCopiesTheProgram := by
  intro s program rest hu hs hfits
  have hstep : step s = .next ({ s with schedule := rest }.loadProgram program) :=
    (step_event hs).trans (hostLoad_unloaded program hu)
  rw [loadProgram_fits _ hfits] at hstep
  refine ⟨_, hstep, rfl, toNat_loadEnd hfits, fun k b hb => ?byte, fun a ha => ?outside⟩
  case byte =>
    obtain ⟨hk, rfl⟩ := List.getElem?_eq_some_iff.mp hb
    exact Memory.read_writeBytes program s.mem 0x200 k hk
  case outside => exact Memory.read_writeBytes_outside program s.mem 0x200 a ha

/-- Settles O50: the load's two checks, of the program's size and of the status. -/
theorem loadsThatCannotBeAreRefused : Obligations.LoadsThatCannotBeAreRefused := by
  intro s program rest hs
  rw [step_event hs]
  refine ⟨fun hu hlarge => ?_, fun hloaded => hostLoad_refused program hloaded⟩
  rw [← loadProgram_too_large { s with schedule := rest } hlarge]
  exact hostLoad_unloaded program hu

/-! ### The reset table -/

/-- Outside the font table memory is 0 after reset (R43). -/
theorem background_outside_font {a : Nat} (h : a < 0x50 ∨ 0xA0 ≤ a) : Memory.background a = 0 := by
  unfold Memory.background fontAddress
  split
  · have hlength : fontTable.length ≤ a - 0x50 := by
      rw [show fontTable.length = 80 from rfl]
      omega
    exact List.getD_eq_default _ _ hlength
  · rfl

theorem hostReset_atResetTable (s : State) : s.hostReset.AtResetTable := by
  refine ⟨fun r => ?registers, rfl, rfl, rfl, rfl, rfl, rfl, rfl, ?pixels, rfl,
    fun a ha => background_outside_font ha, ?font⟩
  case registers => exact Vector.getElem_replicate r.isLt
  case pixels => exact Framebuffer.pixel_clear
  case font => exact ⟨rfl, rfl, rfl, rfl⟩

/-- Settles O52: the reset state is the host's reset of itself, and a reset is enabled in every status. -/
theorem resetLeavesTheResetTable : Obligations.ResetLeavesTheResetTable :=
  ⟨hostReset_atResetTable State.reset, rfl,
    fun _ _ hs => ⟨_, step_event hs, hostReset_atResetTable _, rfl, rfl, rfl⟩⟩

end Sys2Proof.Machine
end

section
/-! The invariant: it holds at reset, and every step keeps it (10_state.md sections 2, 4 and 7,
42_control_flow.md R152). -/

namespace Sys2Proof.Machine

/-! ### The part that does not speak of the status -/

/-- The part of `State.Inv` that holds whatever the status. -/
structure State.Bounded (s : State) : Prop where
  memory : s.mem.wf = true
  loadEndRange : 0x200 ≤ s.loadEnd.toNat ∧ s.loadEnd.toNat ≤ 0x1000
  pcRange : s.pc.toNat ≤ 0x10FE
  returns : ∀ e ∈ s.stack, e.toNat % 2 = 0 ∧ 0x202 ≤ e.toNat ∧ e.toNat ≤ 0x1000
  depth : ∀ d, s.params.stackDepth = some d → s.stack.length ≤ d

theorem State.Inv.bounded {s : State} (h : s.Inv) : s.Bounded :=
  ⟨h.memory, h.loadEndRange, h.pcRange, h.returns, h.depth⟩

/-- The bounds speak of five fields. -/
theorem State.Bounded.congr {s t : State} (h : s.Bounded) (hmem : t.mem = s.mem)
    (hloadEnd : t.loadEnd = s.loadEnd) (hpc : t.pc = s.pc) (hstack : t.stack = s.stack)
    (hparams : t.params = s.params) : t.Bounded where
  memory := hmem ▸ h.memory
  loadEndRange := hloadEnd ▸ h.loadEndRange
  pcRange := hpc ▸ h.pcRange
  returns := hstack ▸ h.returns
  depth := by
    rw [hparams, hstack]
    exact h.depth

theorem State.Bounded.setStatus {s : State} (h : s.Bounded) (status : Status) :
    State.Bounded { s with status := status } :=
  h.congr rfl rfl rfl rfl rfl

theorem State.Bounded.inv_of_running {s : State} (h : s.Bounded) (hs : s.status = .running) :
    s.Inv where
  memory := h.memory
  loadEndRange := h.loadEndRange
  pcRange := h.pcRange
  returns := h.returns
  depth := h.depth
  unloaded hu := by cases hs.symm.trans hu
  loadFailed hf := by cases hs.symm.trans hf
  halted hh := by cases hs.symm.trans hh
  faulted c hc := by cases hs.symm.trans hc

theorem State.Bounded.inv_of_halted {s : State} (h : s.Bounded) (hs : s.status = .halted)
    (hend : s.pc.toNat % 2 = 0 ∧ 0x200 ≤ s.pc.toNat ∧ s.loadEnd.toNat < s.pc.toNat + 2) : s.Inv where
  memory := h.memory
  loadEndRange := h.loadEndRange
  pcRange := h.pcRange
  returns := h.returns
  depth := h.depth
  unloaded hu := by cases hs.symm.trans hu
  loadFailed hf := by cases hs.symm.trans hf
  halted _ := hend
  faulted c hc := by cases hs.symm.trans hc

theorem State.Bounded.inv_of_faulted {s : State} {c : Cause} (h : s.Bounded)
    (hs : s.status = .faulted c) (hc : c.Describes s) : s.Inv where
  memory := h.memory
  loadEndRange := h.loadEndRange
  pcRange := h.pcRange
  returns := h.returns
  depth := h.depth
  unloaded hu := by cases hs.symm.trans hu
  loadFailed hf := by cases hs.symm.trans hf
  halted hh := by cases hs.symm.trans hh
  faulted c' hc' := by
    cases hs.symm.trans hc'
    exact hc

/-! ### Executed instructions -/

theorem pc_of_completes {i : Instr} {s t : State} (h : Completes i s t) :
    t.pc = s.pc ∨ t.pc = s.pc + 2 ∨ t.pc = s.pc - 2 ∨ t.pc.toNat ≤ 0x10FE ∨ t.pc ∈ s.stack := by
  obtain ⟨hframe, heffect⟩ := h
  cases i with
  | skipEqualConstant | skipNotEqualConstant | skipEqualRegister | skipNotEqualRegister
  | skipIfPressed | skipIfNotPressed => exact heffect.imp_right .inl
  | getKey => exact heffect.2.imp_right fun hback => .inr (.inl hback)
  | jump | jumpWithOffset => exact .inr (.inr (.inr (.inl heffect)))
  | pushSubroutine => exact .inr (.inr (.inr (.inl heffect.2.2)))
  | popSubroutine =>
    have hstack : s.stack = t.stack ++ [t.pc] := heffect
    refine .inr (.inr (.inr (.inr ?_)))
    rw [hstack]
    exact List.mem_concat_self
  | _ =>
    rw [hframe]
    exact .inl rfl

theorem stack_of_completes {i : Instr} {s t : State} (h : Completes i s t) :
    t.stack = s.stack ∨
    (s.params.stackDepth ≠ some s.stack.length ∧ t.stack = s.stack ++ [s.pc]) ∨
    s.stack = t.stack ++ [t.pc] := by
  obtain ⟨hframe, heffect⟩ := h
  cases i with
  | pushSubroutine => exact .inr (.inl ⟨heffect.1, heffect.2.1⟩)
  | popSubroutine => exact .inr (.inr heffect)
  | _ =>
    rw [hframe]
    exact .inl rfl

theorem wf_of_completes {i : Instr} {s t : State} (h : Completes i s t) (hwf : s.mem.wf = true) :
    t.mem.wf = true := by
  obtain ⟨hframe, heffect⟩ := h
  cases i with
  | toDecimal | storeRegisters => exact heffect hwf
  | _ =>
    rw [hframe]
    exact hwf

/-- Where the fetch check passes, the advanced `pc` is a return address as the invariant has them. -/
theorem advance_pc_of_fetches {s : State} (h : s.Bounded) (hfetches : s.Fetches) :
    s.advance.pc.toNat % 2 = 0 ∧ 0x202 ≤ s.advance.pc.toNat ∧ s.advance.pc.toNat ≤ 0x1000 := by
  obtain ⟨heven, hlow, hend⟩ := hfetches
  obtain ⟨-, hloadEnd⟩ := h.loadEndRange
  have hpc : s.advance.pc.toNat = s.pc.toNat + 2 := by
    rw [State.advance_pc]
    bv_omega
  omega

theorem bounded_of_completes {i : Instr} {s t : State} (hs : s.Bounded) (hfetches : s.Fetches)
    (h : Completes i s.advance t) : t.Bounded := by
  have hadvance := advance_pc_of_fetches hs hfetches
  obtain ⟨hloadEnd, hparams, -, -, -⟩ := kept_of_completes h
  constructor
  case memory => exact wf_of_completes h hs.memory
  case loadEndRange =>
    rw [hloadEnd]
    exact hs.loadEndRange
  case pcRange =>
    rcases pc_of_completes h with hpc | hpc | hpc | hpc | hpc
    · rw [hpc]; omega
    · rw [hpc]; bv_omega
    · rw [hpc]; bv_omega
    · exact hpc
    · exact (hs.returns _ hpc).2.2.trans (by decide)
  case returns =>
    rcases stack_of_completes h with hstack | ⟨-, hstack⟩ | hstack
    · rw [hstack]
      exact hs.returns
    · intro e he
      rw [hstack, List.mem_append, List.mem_singleton] at he
      rcases he with he | rfl
      · exact hs.returns e he
      · exact hadvance
    · intro e he
      refine hs.returns e ?_
      rw [← State.advance_stack, hstack]
      exact List.mem_append_left _ he
  case depth =>
    intro d hd
    rw [hparams] at hd
    have hbound := hs.depth d hd
    rcases stack_of_completes h with hstack | ⟨hroom, hstack⟩ | hstack
    · rw [hstack]
      exact hbound
    · have hne : s.stack.length ≠ d := by
        rintro rfl
        exact hroom hd
      rw [hstack, List.length_append, List.length_singleton, State.advance_stack]
      omega
    · rw [← State.advance_stack, hstack, List.length_append, List.length_singleton] at hbound
      omega

/-! ### The moves -/

theorem inv_of_cpuStep {s t : State} (hs : s.Bounded) (hrunning : s.status = .running)
    (h : cpuStep s = .next t) : t.Inv := by
  rcases cpuStep_next h with ⟨c, hc, rfl⟩ | ⟨heven, hlow, hend, rfl⟩ | ⟨hfetches, hcompletes⟩
  · exact (hs.setStatus (.faulted c)).inv_of_faulted rfl hc
  · exact (hs.setStatus .halted).inv_of_halted rfl ⟨heven, hlow, hend⟩
  · exact (bounded_of_completes hs hfetches hcompletes).inv_of_running
      ((status_of_completes hcompletes).trans hrunning)

theorem hostReset_inv {s : State} : s.hostReset.Inv where
  memory := Memory.wf_nil
  loadEndRange := (by decide : 0x200 ≤ State.reset.loadEnd.toNat ∧ State.reset.loadEnd.toNat ≤ 0x1000)
  pcRange := (by decide : State.reset.pc.toNat ≤ 0x10FE)
  returns := nofun
  depth _ _ := Nat.zero_le _
  unloaded _ := rfl
  loadFailed := nofun
  halted := nofun
  faulted := nofun

/-- A load starts from an untouched core: it leaves the program's bytes and bounds, or a mere
`LoadFailed`. -/
theorem loadProgram_inv {s : State} (hs : s.Bounded) (hunloaded : s.status = .unloaded)
    (huntouched : s.hostReset = s) (program : List Byte) : (s.loadProgram program).Inv := by
  by_cases hfits : 0x200 + program.length ≤ 4096
  · rw [loadProgram_fits s hfits]
    refine State.Bounded.inv_of_running ⟨?memory, ?loadEnd, ?pc, hs.returns, hs.depth⟩ rfl
    case memory => exact Memory.wf_writeBytes program hfits hs.memory
    case loadEnd =>
      rw [toNat_loadEnd hfits]
      omega
    case pc => exact (by decide : (0x200 : Word).toNat ≤ 0x10FE)
  · rw [loadProgram_too_large s (Nat.not_le.mp hfits)]
    have huntouched' : { s with status := .unloaded } = s := by rw [← hunloaded]
    exact {
      memory := hs.memory
      loadEndRange := hs.loadEndRange
      pcRange := hs.pcRange
      returns := hs.returns
      depth := hs.depth
      unloaded := nofun
      loadFailed := fun _ => huntouched.trans huntouched'.symm
      halted := nofun
      faulted := nofun }

/-- Settles O54: a CPU step executes, halts or faults within the bounds, a tick or a refresh writes nothing
the invariant speaks of, a load starts from an untouched core, and a reset gives the reset state. -/
theorem everyStepKeepsTheInvariant : Obligations.EveryStepKeepsTheInvariant := by
  intro s t hs h
  have hmoved : s.moved.Bounded := hs.bounded.congr rfl rfl rfl rfl rfl
  rcases step_next h with ⟨-, hr, hcpu⟩ | ⟨hr, hmove⟩ | ⟨program, hu, rfl⟩ | ⟨rest, -, rfl⟩
  · exact inv_of_cpuStep hmoved hr hcpu
  · refine State.Bounded.inv_of_running ?_ ((status_of_tick_or_refresh hmove).trans hr)
    rcases hmove with rfl | rfl | rfl <;> exact hmoved.congr rfl rfl rfl rfl rfl
  · exact loadProgram_inv hmoved hu (congrArg State.moved (hs.unloaded hu)) program
  · exact hostReset_inv

/-- Settles O53: the reset state is what the host's reset makes of it. -/
theorem resetStateMeetsTheInvariant : Obligations.ResetStateMeetsTheInvariant :=
  hostReset_inv (s := State.reset)

/-- Settles O55: the address popped was stacked, so it is even and at least 0x202. -/
theorem returnsNeverRaisePcInvariantFault : Obligations.ReturnsNeverRaisePcInvariantFault := by
  intro s t hs h hfree
  rcases execPopSubroutine_cases s with ⟨init, last, hstack, e⟩ | ⟨-, e⟩ <;> cases e.symm.trans h
  · obtain ⟨heven, hlow, -⟩ := hs.returns last (by rw [hstack]; exact List.mem_concat_self)
    exact ⟨heven, hlow⟩
  · exact absurd rfl (hfree .stackUnderflow)

end Sys2Proof.Machine
end

section
/-! Fair runs: the delay timer of a running core runs out (70_reset_and_hazards.md R233). -/

namespace Sys2Proof.Machine

/-! ### One move of an endless sequence -/

theorem afterMoves_succ {moves : Nat → Event} {s t : State} {n : Nat}
    (h : afterMoves moves s n = .next t) : afterMoves moves s (n + 1) = runEvent (moves n) t := by
  rw [afterMoves, h]
  exact step_event rfl

theorem cpuStep_answers_next (s : State) : ∃ t, cpuStep s = .next t := by
  rcases cpuStep_cases s with ⟨-, e⟩ | ⟨-, -, -, e⟩ | ⟨-, e⟩
  · exact ⟨_, e⟩
  · exact ⟨_, e⟩
  · rw [e]
    exact exec_answers_next _ _

/-- A CPU step that does not set the delay timer keeps it. -/
theorem dt_of_cpuStep {s t : State} (h : cpuStep s = .next t)
    (hword : s.Fetches → ∀ x, decodeWord (s.wordAt s.pc.toNat) ≠ .copyRegisterToDelay x) :
    t.dt = s.dt := by
  rcases cpuStep_next h with ⟨c, -, rfl⟩ | ⟨-, -, -, rfl⟩ | ⟨hfetches, hframe, -⟩
  · rfl
  · rfl
  · by_contra hdt
    rw [hframe] at hdt
    obtain ⟨x, hx⟩ := written_dt hdt
    exact hword hfetches x hx

/-- The moves' next state exists, the delay timer has not gone up, and a delay tick has taken it down. -/
theorem next_of_runningAt {moves : Nat → Event} {s t : State} {n : Nat} (hfair : FairMoves moves s)
    (hnever : NeverSetsDelay moves s) (h : RunningAt moves s n t) :
    ∃ u, afterMoves moves s (n + 1) = .next u ∧ u.dt.toNat ≤ t.dt.toNat ∧
      (moves n = .tickDelay → u.dt.toNat = t.dt.toNat - 1) := by
  obtain ⟨hreached, hrunning⟩ := h
  rw [afterMoves_succ hreached]
  rcases hfair.noHost n with hmove | hmove | hmove | hmove <;> rw [hmove]
  · obtain ⟨u, hu⟩ := cpuStep_answers_next t
    have hdt := dt_of_cpuStep hu fun hfetches x => hnever n t x ⟨hreached, hrunning⟩ hmove hfetches
    exact ⟨u, (whileRunning_running cpuStep hrunning).trans hu, hdt ▸ le_rfl, nofun⟩
  · refine ⟨_, whileRunning_running (fun s => .next s.tickDelay) hrunning, ?_, fun _ => ?_⟩
    · exact (toNat_countDown t.dt).trans_le (Nat.sub_le _ _)
    · exact toNat_countDown t.dt
  · exact ⟨_, whileRunning_running (fun s => .next s.tickSound) hrunning, le_rfl, nofun⟩
  · exact ⟨_, whileRunning_running (fun s => .next s.refresh) hrunning, le_rfl, nofun⟩

/-! ### The timer runs out -/

/-- Some point of the run has `DT = 0`, or the run has ended. -/
def DelayRunsOut (moves : Nat → Event) (s : State) : Prop :=
  ∃ n t, afterMoves moves s n = .next t ∧ (t.dt = 0 ∨ t.status ≠ .running)

/-- From a running point the run ends or goes on `k` more moves, the timer no higher. -/
theorem runningAt_add {moves : Nat → Event} {s t : State} {n : Nat} (hfair : FairMoves moves s)
    (hnever : NeverSetsDelay moves s) (h : RunningAt moves s n t) (k : Nat) :
    DelayRunsOut moves s ∨ ∃ u, RunningAt moves s (n + k) u ∧ u.dt.toNat ≤ t.dt.toNat := by
  induction k with
  | zero => exact .inr ⟨t, h, le_rfl⟩
  | succ k ih =>
    rcases ih with hout | ⟨u, hu, hle⟩
    · exact .inl hout
    · obtain ⟨v, hv, hvu, -⟩ := next_of_runningAt hfair hnever hu
      by_cases hrunning : v.status = .running
      · exact .inr ⟨v, ⟨hv, hrunning⟩, hvu.trans hle⟩
      · exact .inl ⟨n + k + 1, v, hv, .inr hrunning⟩

/-- By induction on the timer's value: while it is above 0 a fair run ticks it. -/
theorem delayRunsOut_of_runningAt {moves : Nat → Event} {s : State} (hfair : FairMoves moves s)
    (hnever : NeverSetsDelay moves s) (d : Nat) : ∀ n t, RunningAt moves s n t → t.dt.toNat ≤ d →
      DelayRunsOut moves s := by
  induction d with
  | zero => exact fun n t h hd => ⟨n, t, h.1, .inl (BitVec.eq_of_toNat_eq (Nat.le_zero.mp hd))⟩
  | succ d ih =>
    intro n t h hd
    by_cases hzero : t.dt = 0
    · exact ⟨n, t, h.1, .inl hzero⟩
    obtain ⟨m, hm, htick⟩ := hfair.delay n t h hzero
    rcases runningAt_add hfair hnever h (m - n) with hout | ⟨u, hu, hle⟩
    · exact hout
    rw [Nat.add_sub_cancel' hm] at hu
    obtain ⟨v, hv, -, hdown⟩ := next_of_runningAt hfair hnever hu
    by_cases hrunning : v.status = .running
    · refine ih (m + 1) v ⟨hv, hrunning⟩ ?_
      rw [hdown htick]
      omega
    · exact ⟨m + 1, v, hv, .inr hrunning⟩

/-- Settles O45: a fair run ticks the timer as long as it is above 0, and nothing sets it. -/
theorem delayTimerRunsOutUnderFairness : Obligations.DelayTimerRunsOutUnderFairness :=
  fun _ s hrunning hfair hnever =>
    delayRunsOut_of_runningAt hfair hnever s.dt.toNat 0 s ⟨rfl, hrunning⟩ le_rfl

end Sys2Proof.Machine
end
